-- ==== Sys2Proof/Word.lean ====
section
/-! DEFINITION. The machine's one data width (spec/00_scope.md R6, R7): 8-bit unsigned bytes, indexes of the eight
registers, and the explicit narrowing `mod 256`. -/

namespace Sys2Proof

/-- An unsigned 8-bit value: a register, a memory cell, an operand byte (00_scope.md R6, `W` = 8). -/
abbrev Byte := BitVec 8

/-- The index of one of the `NREG` = 8 registers r0 to r7 (10_state.md R21, R22). -/
abbrev RegIndex := Fin 8

/-- `n mod 256`: an exact integer result narrowed to a byte (00_scope.md R7, 42_alu.md R148). -/
def wrapByte (n : Nat) : Byte := BitVec.ofNat 8 n

end Sys2Proof
end

