-- ==== Sys2Proof/Syntax.lean ====
section
/-! DEFINITION. The instructions: one constructor per row of spec/opcode_table.json (30_encoding.md R75), each carrying its
operand bytes as fetched. A register operand is the WHOLE byte: whether it names a register is decided when the instruction
executes (30_encoding.md R74, 40_engine.md R104), so the byte is kept and not turned into an index here. -/

namespace Sys2Proof

/-- The 13 rows of the dispatcher table, in its order (30_encoding.md R75, 40_engine.md R111). -/
inductive Mnemonic where
  | halt
  | loadImmediate
  | printRegister
  | add
  | multiply
  | compare
  | push
  | pop
  | call
  | ret
  | jump
  | jumpIfEqual
  | jumpIfNotEqual
  deriving DecidableEq, Repr

/-- The dispatcher table's rows as a list, in the table's order. -/
def Mnemonic.all : List Mnemonic :=
  [.halt, .loadImmediate, .printRegister, .add, .multiply, .compare, .push, .pop, .call, .ret, .jump, .jumpIfEqual,
    .jumpIfNotEqual]

/-- One instruction with its operand bytes: `a` is the byte at pc+1, `b` (or `imm`) the byte at pc+2 (00_scope.md R9). -/
inductive Instr where
  /-- HALT, format N (41_halt_move_output.md R121). -/
  | halt
  /-- LOAD_IMMEDIATE rA, imm, format RI (41_halt_move_output.md R123). -/
  | loadImmediate (a imm : Byte)
  /-- PRINT_REGISTER rA, format R (41_halt_move_output.md R125). -/
  | printRegister (a : Byte)
  /-- ADD rA, rB, format RR (42_alu.md R142). -/
  | add (a b : Byte)
  /-- MULTIPLY rA, rB, format RR (42_alu.md R144). -/
  | multiply (a b : Byte)
  /-- COMPARE rA, rB, format RR (42_alu.md R146). -/
  | compare (a b : Byte)
  /-- PUSH rA, format R (43_stack.md R161). -/
  | push (a : Byte)
  /-- POP rA, format R (43_stack.md R163). -/
  | pop (a : Byte)
  /-- CALL rA, format R (44_control_flow.md R181). -/
  | call (a : Byte)
  /-- RETURN, format N (44_control_flow.md R183). -/
  | ret
  /-- JUMP rA, format R (44_control_flow.md R185). -/
  | jump (a : Byte)
  /-- JUMP_IF_EQUAL rA, format R (44_control_flow.md R187). -/
  | jumpIfEqual (a : Byte)
  /-- JUMP_IF_NOT_EQUAL rA, format R (44_control_flow.md R189). -/
  | jumpIfNotEqual (a : Byte)
  deriving DecidableEq, Repr

end Sys2Proof
end

