-- ==== Sys2Proof/Config.lean ====
section
/-! DEFINITION. The implementation parameters (00_scope.md R6): what one model takes as configuration. Every operation of the
model that depends on one takes a `Config`; the machine of this package is the instance `Config.machine`
(Machine/Params.lean), which holds the values the spec fixes. The spec leaves no value an instruction produces open, so there
is no free value here. -/

namespace Sys2Proof

/-- `REG_INDEX_POLICY` (40_engine.md R104): what an operand byte outside 0..7 does as a register index. -/
inductive RegIndexPolicy where
  /-- Raise RegisterIndexFault: the spec's value (92_eei_decisions.md D7). -/
  | fault
  /-- Use the low three bits: the only other admitted value. -/
  | mask3
  deriving DecidableEq, Repr

/-- The parameters a model takes (00_scope.md R6). `MEM_RANGE_POLICY` has only the value `fault`
(60_exceptions.md R202), so it is no field. -/
structure Config where
  /-- `MEM_SIZE`, in bytes. -/
  memSize : Nat
  /-- `SP_RESET`, the value of x[7] after reset. -/
  spReset : Byte
  /-- `OPCODE_MAP`, the opcode byte of each mnemonic. -/
  opcode : Mnemonic → Byte
  /-- `REG_INDEX_POLICY`. -/
  regIndexPolicy : RegIndexPolicy

end Sys2Proof
end

