-- ==== Sys2Proof/Machine/Params.lean ====
section
/-! DEFINITION. The parameter values this spec fixes (00_scope.md R6): OPCODE_MAP, MEM_SIZE, SP_RESET and REG_INDEX_POLICY. -/

namespace Sys2Proof

/-- OPCODE_MAP (30_encoding.md R76; the spec's decision D1, taken from general knowledge: log 4). -/
def opcodeMap : Mnemonic → Byte
  | .halt => 0x01
  | .loadImmediate => 0x82
  | .printRegister => 0x47
  | .add => 0xA0
  | .multiply => 0xA2
  | .compare => 0xA7
  | .push => 0x45
  | .pop => 0x46
  | .call => 0x50
  | .ret => 0x11
  | .jump => 0x54
  | .jumpIfEqual => 0x55
  | .jumpIfNotEqual => 0x56

/-- The machine's parameters (00_scope.md R6). MEM_SIZE = 256 (D9, log 7); SP_RESET = 0xF4 (D5, log 2);
REG_INDEX_POLICY = fault (D7, log 5). -/
def Config.machine : Config where
  memSize := 256
  spReset := 0xF4
  opcode := opcodeMap
  regIndexPolicy := .fault

end Sys2Proof
end

