-- ==== Sys2Proof/Machine/State.lean ====
section
/-! DEFINITION. The architectural state `(x[0..7], pc, F, RS, FR, MEM, OUT)` (10_state.md R20), the reasons a step can stop,
and the state after reset (10_state.md R37). -/

namespace Sys2Proof.Machine

/-- MEM as (address, byte) pairs (10_state.md R32). An address that is not listed reads as 0, the reset contents
(10_state.md R37). Kept in one canonical form: addresses strictly rising, no byte 0 listed (`Memory.wf`, Machine/Ops.lean;
log 24). -/
abbrev Memory := List Host.Cell

/-- The Flags Unit: three independent booleans (10_state.md R27, R28). -/
structure Flags where
  /-- `F.E`, Equal. -/
  equal : Bool
  /-- `F.L`, Less. -/
  less : Bool
  /-- `F.G`, Greater. -/
  greater : Bool
  deriving DecidableEq, Repr

/-- The run state RS (10_state.md R30). -/
inductive RunState where
  | running
  | halted
  | faulted
  deriving DecidableEq, Repr

/-- The fault causes (60_exceptions.md R200), codes 1 to 4 in this order. -/
inductive Cause where
  /-- Code 1: the opcode byte matches no known instruction. -/
  | decodeFault
  /-- Code 2: an ALU request names an operation other than Add, Multiply, Compare. -/
  | unsupportedAluOperation
  /-- Code 3: a register index outside 0..7. -/
  | registerIndexFault
  /-- Code 4: a memory address outside bounds. -/
  | memoryAddressFault
  deriving DecidableEq, Repr

/-- The fault record FR = (cause, fpc, info) (10_state.md R31). -/
structure FaultRecord where
  cause : Cause
  /-- The address of the faulting instruction's opcode byte. -/
  fpc : Nat
  /-- The opcode byte, the register-index byte or the out-of-range address, by cause. -/
  info : Nat
  deriving DecidableEq, Repr

/-- The architectural state (10_state.md R20): plain data, one field for each piece the spec names. -/
structure State where
  /-- x[0] to x[7]; x[7] is the stack pointer (10_state.md R21, R23). -/
  regs : Vector Byte 8
  /-- The program counter, an unsigned integer that never wraps (10_state.md R26; log 8). -/
  pc : Nat
  /-- F (10_state.md R27). -/
  flags : Flags
  /-- RS (10_state.md R30). -/
  rs : RunState
  /-- FR; `none` while it is invalid, that is while RS is not Faulted (10_state.md R31, 70_reset_and_hazards.md R230;
  log 9). -/
  fr : Option FaultRecord
  /-- MEM (10_state.md R32). -/
  mem : Memory
  /-- OUT, oldest value first (10_state.md R33). -/
  out : List Byte
  deriving DecidableEq, Repr

/-- Why `step` answers no next state. The spec's own faults (60_exceptions.md R200) are NOT here: they are next states with
RS = Faulted (60_exceptions.md R203). -/
inductive Fault where
  /-- Raised by `step` alone, when RS = Halted: "No step exists from Halted or Faulted" (40_engine.md R100, R110).
  Safe: the hardware does nothing there either. -/
  | noStepFromHalted
  /-- Raised by `step` alone, when RS = Faulted (40_engine.md R100, R110). Safe, as above. -/
  | noStepFromFaulted
  deriving DecidableEq, Repr

/-- What the model declines. -/
inductive Refusal where
  /-- Raised by a refused arm of `exec`: the instruction named has no meaning yet. Safe. No arm of this package uses it. -/
  | notModelled (mnemonic : String)
  /-- Raised by `bootWith` alone: the host refuses an image longer than MEM_SIZE and no run starts
  (70_reset_and_hazards.md R233, 93_implementation_defined.md I16). Safe: the spec's own refusal. -/
  | imageTooLong (length : Nat)
  deriving DecidableEq, Repr

/-- The state after reset with an empty image, under a configuration (10_state.md R37, 70_reset_and_hazards.md R230).
x[0..6] = 0 is the spec's decision D4 (log 1), x[7] is SP_RESET (D5, log 2), the flags are its decision D6 (log 3). -/
def State.resetWith (c : Config) : State where
  regs := #v[0, 0, 0, 0, 0, 0, 0, c.spReset]
  pc := 0
  flags := ⟨false, false, false⟩
  rs := .running
  fr := none
  mem := []
  out := []

/-- The machine right after reset, no image loaded (log 21 says how a program comes to run). -/
def State.reset : State := State.resetWith Config.machine

end Sys2Proof.Machine
end

