-- ==== Sys2Proof/Machine/Flags.lean ====
section
/-! DEFINITION. The flag computation: COMPARE's, the only one (10_state.md R27, 42_alu.md R146). -/

namespace Sys2Proof.Machine

/-- The three flags of an unsigned comparison (42_alu.md R146). -/
def compareFlags (u v : Byte) : Flags where
  equal := decide (u.toNat = v.toNat)
  less := decide (u.toNat < v.toNat)
  greater := decide (u.toNat > v.toNat)

end Sys2Proof.Machine
end

