-- ==== Sys2Proof/WellFormed.lean ====
section
/-! DEFINITION. Which instructions are well formed: every register operand is a legal index 0..7 (30_encoding.md R74,
10_state.md R22; 70_reset_and_hazards.md R234 lays it on the loaded program). An ill-formed instruction still decodes and
still executes: it takes the RegisterIndexFault (40_engine.md R104). Log 27. -/

namespace Sys2Proof

/-- The operand bytes that the instruction's format defines as register indexes, in the order they are checked
(30_encoding.md R73). LOAD_IMMEDIATE's literal is not one of them (41_halt_move_output.md R124). -/
def Instr.registerOperands : Instr → List Byte
  | .halt => []
  | .loadImmediate a _ => [a]
  | .printRegister a => [a]
  | .add a b => [a, b]
  | .multiply a b => [a, b]
  | .compare a b => [a, b]
  | .push a => [a]
  | .pop a => [a]
  | .call a => [a]
  | .ret => []
  | .jump a => [a]
  | .jumpIfEqual a => [a]
  | .jumpIfNotEqual a => [a]

/-- Every register operand is in 0..7 (30_encoding.md R74: "legal values 0..7"). -/
abbrev Instr.WellFormed (i : Instr) : Prop := ∀ r ∈ i.registerOperands, r.toNat ≤ 7

end Sys2Proof
end

