-- ==== Sys2Proof/Decode.lean ====
section
/-! DEFINITION. Decoding (30_encoding.md R70 to R80): a total function from bytes to an instruction and the bytes after it, or
a refusal by name; then the encoder, from the same table; then the reading of the opcode table's numbering of bits. -/

namespace Sys2Proof

/-- The instruction formats (30_encoding.md R73). -/
inductive Format where
  /-- `N`: the opcode alone. -/
  | n
  /-- `R`: one register index. -/
  | r
  /-- `RR`: two register indexes. -/
  | rr
  /-- `RI`: a register index and a literal. -/
  | ri
  deriving DecidableEq, Repr

/-- How many operand bytes a format has (30_encoding.md R73). -/
def Format.operandBytes : Format → Nat
  | .n => 0
  | .r => 1
  | .rr => 2
  | .ri => 2

/-- The format of each mnemonic (30_encoding.md R73). -/
def Mnemonic.format : Mnemonic → Format
  | .halt => .n
  | .loadImmediate => .ri
  | .printRegister => .r
  | .add => .rr
  | .multiply => .rr
  | .compare => .rr
  | .push => .r
  | .pop => .r
  | .call => .r
  | .ret => .n
  | .jump => .r
  | .jumpIfEqual => .r
  | .jumpIfNotEqual => .r

/-- `operand_count(op) = op[7:6]` (30_encoding.md R72). -/
def operandCount (op : Byte) : Nat := (op >>> 6).toNat

/-- The mnemonic of an opcode byte, matched as a whole byte against OPCODE_MAP; `none` is an unknown opcode
(30_encoding.md R78, R79). -/
def decodeOpcode (c : Config) (op : Byte) : Option Mnemonic := Mnemonic.all.find? fun m => c.opcode m == op

/-- The instruction of a mnemonic and its operand bytes; an operand the format lacks is not used (40_engine.md R103). -/
def assemble (m : Mnemonic) (a b : Byte) : Instr :=
  match m with
  | .halt => .halt
  | .loadImmediate => .loadImmediate a b
  | .printRegister => .printRegister a
  | .add => .add a b
  | .multiply => .multiply a b
  | .compare => .compare a b
  | .push => .push a
  | .pop => .pop a
  | .call => .call a
  | .ret => .ret
  | .jump => .jump a
  | .jumpIfEqual => .jumpIfEqual a
  | .jumpIfNotEqual => .jumpIfNotEqual a

/-- Why bytes are no instruction. -/
inductive DecodeError where
  /-- There is no opcode byte. -/
  | noOpcode
  /-- The opcode byte is in no row of OPCODE_MAP (30_encoding.md R79). -/
  | unknownOpcode (op : Byte)
  /-- Operand byte number `k` (1 for a, 2 for b) is missing. -/
  | missingOperand (k : Nat)
  deriving DecidableEq, Repr

/-- Takes `n` operand bytes and leaves the rest (30_encoding.md R73). The operand count 3 is not legal
(30_encoding.md R72) and no known opcode has it. -/
def takeOperands (m : Mnemonic) : Nat → List Byte → Except DecodeError (Instr × List Byte)
  | 0, rest => .ok (assemble m 0 0, rest)
  | 1, a :: rest => .ok (assemble m a 0, rest)
  | 2, a :: b :: rest => .ok (assemble m a b, rest)
  | 2, [_] => .error (.missingOperand 2)
  | _, _ => .error (.missingOperand 1)

/-- The decoder under a configuration: opcode byte, then `op[7:6]` operand bytes (30_encoding.md R70, R72, R78). -/
def decodeWith (c : Config) : List Byte → Except DecodeError (Instr × List Byte)
  | [] => .error .noOpcode
  | op :: rest =>
    match decodeOpcode c op with
    | none => .error (.unknownOpcode op)
    | some m => takeOperands m (operandCount op) rest

/-- The machine's decoder. -/
def decode (bytes : List Byte) : Except DecodeError (Instr × List Byte) := decodeWith Config.machine bytes

/-- The dispatcher row of an instruction (40_engine.md R111). -/
def Instr.mnemonic : Instr → Mnemonic
  | .halt => .halt
  | .loadImmediate _ _ => .loadImmediate
  | .printRegister _ => .printRegister
  | .add _ _ => .add
  | .multiply _ _ => .multiply
  | .compare _ _ => .compare
  | .push _ => .push
  | .pop _ => .pop
  | .call _ => .call
  | .ret => .ret
  | .jump _ => .jump
  | .jumpIfEqual _ => .jumpIfEqual
  | .jumpIfNotEqual _ => .jumpIfNotEqual

/-- The operand bytes of an instruction, in ascending address order (30_encoding.md R73). -/
def Instr.operands : Instr → List Byte
  | .halt => []
  | .loadImmediate a b => [a, b]
  | .printRegister a => [a]
  | .add a b => [a, b]
  | .multiply a b => [a, b]
  | .compare a b => [a, b]
  | .push a => [a]
  | .pop a => [a]
  | .call a => [a]
  | .ret => []
  | .jump a => [a]
  | .jumpIfEqual a => [a]
  | .jumpIfNotEqual a => [a]

/-- The bytes of an instruction under a configuration (30_encoding.md R70, R73, R76). -/
def encodeWith (c : Config) (i : Instr) : List Byte := c.opcode i.mnemonic :: i.operands

/-- The machine's encoder. -/
def encode (i : Instr) : List Byte := encodeWith Config.machine i

/-- The constraints the spec states on a configuration: each opcode's bits 7:6 are its operand count and the opcodes are
distinct (30_encoding.md R77), and every address fits a byte (00_scope.md R6). -/
abbrev Config.Admitted (c : Config) : Prop :=
  (∀ m ∈ Mnemonic.all, operandCount (c.opcode m) = m.format.operandBytes) ∧
    (∀ m ∈ Mnemonic.all, ∀ m' ∈ Mnemonic.all, c.opcode m = c.opcode m' → m = m') ∧ 0 < c.memSize ∧ c.memSize ≤ 256

/-- The bytes, lowest address first, of an instruction whose bits are `w` as spec/opcode_table.json numbers them: bit 0 is
the least significant bit of the first byte. Bits at or above `nbits` are 0, up to the longest instruction, 3 bytes. -/
def tableBytes (nbits w : Nat) : List Byte :=
  let v := w % 2 ^ nbits
  [wrapByte v, wrapByte (v / 2 ^ 8), wrapByte (v / 2 ^ 16)]

/-- What the decoder reads from an instruction of the opcode table given as a number. -/
def decodeTableWord (nbits w : Nat) : Option Instr :=
  match decode (tableBytes nbits w) with
  | .ok (i, _) => some i
  | .error _ => none

end Sys2Proof
end

