-- ==== Sys2Proof/Machine/Ops.lean ====
section
/-! DEFINITION. The named operations over registers, memory, output and run state (00_scope.md R8), taking a fault
(60_exceptions.md R203), and the two ways a step ends (40_engine.md R106, R107). -/

namespace Sys2Proof.Machine

/-! ## Registers -/

/-- `x[i]` (10_state.md R22). -/
def State.reg (s : State) (i : RegIndex) : Byte := s.regs[i]

/-- `x[i] <- v` (10_state.md R22). -/
def State.setReg (s : State) (i : RegIndex) (v : Byte) : State := { s with regs := s.regs.set i v }

/-- `SP_INDEX` (00_scope.md R6). -/
def spIndex : RegIndex := 7

/-- `SP`, another name for x[7] (10_state.md R23). -/
def State.sp (s : State) : Byte := s.reg spIndex

/-- `x[7] <- (x[7] - 1) mod 256` (43_stack.md R160). -/
def State.decrementSp (s : State) : State := s.setReg spIndex (s.sp - 1)

/-- `x[7] <- (x[7] + 1) mod 256` (43_stack.md R160). -/
def State.incrementSp (s : State) : State := s.setReg spIndex (s.sp + 1)

/-! ## Memory -/

/-- The byte at an address; an address that is not listed reads as 0 (10_state.md R37). -/
def Memory.read : Memory → Nat → Byte
  | [], _ => 0
  | (k, v) :: rest, a => if k = a then v else Memory.read rest a

/-- Lists a byte at its place among rising addresses, in the place of an earlier entry for the address. -/
def Memory.insert (a : Nat) (v : Byte) : Memory → Memory
  | [] => [(a, v)]
  | (k, w) :: rest =>
    if a < k then (a, v) :: (k, w) :: rest
    else if a = k then (a, v) :: rest
    else (k, w) :: Memory.insert a v rest

/-- Takes every entry for an address away, so that it reads as 0. -/
def Memory.erase (a : Nat) (m : Memory) : Memory := m.filter fun e => e.1 != a

/-- Writes one byte and keeps the canonical form: 0 is what an unlisted address reads as, so it is not listed. -/
def Memory.write (m : Memory) (a : Nat) (v : Byte) : Memory := if v = 0 then m.erase a else m.insert a v

/-- Writes bytes at ascending addresses, those below `size` only. -/
def Memory.writeBytes (size : Nat) (m : Memory) (a : Nat) : List Byte → Memory
  | [] => m
  | b :: bs => Memory.writeBytes size (if a < size then m.write a b else m) (a + 1) bs

/-- The canonical form: addresses strictly rising, no byte 0 listed, every address in `[0, size)`. -/
abbrev Memory.wf (size : Nat) (m : Memory) : Prop :=
  m.Pairwise (fun x y => x.1 < y.1) ∧ ∀ e ∈ m, e.2 ≠ 0 ∧ e.1 < size

/-! ## Faults -/

/-- A fault being raised: its cause and its datum (60_exceptions.md R203). -/
structure Raise where
  cause : Cause
  info : Nat
  deriving DecidableEq, Repr

/-- What an instruction's rule gives: the state with its writes made, or the fault it raises. -/
abbrev Attempt := Except Raise State

/-- Fault entry (60_exceptions.md R203): RS <- Faulted, FR <- (cause, pc, datum), and nothing else changes. It is the one
place where a fault is taken. The spec has no return from one (60_exceptions.md R205). -/
def takeFault (r : Raise) (s : State) : State := { s with rs := .faulted, fr := some ⟨r.cause, s.pc, r.info⟩ }

/-- The end of an atomic step (40_engine.md R100, R108): all of the instruction's writes, or none of them and Faulted. `s` is
the state at the start of the step. -/
def commit (s : State) : Attempt → State
  | .ok t => t
  | .error r => takeFault r s

/-- `MemRead(a, 1)` behind the range check (20_memory.md R53, R54). -/
def readMem (c : Config) (a : Nat) (s : State) : Except Raise Byte :=
  if a < c.memSize then .ok (s.mem.read a) else .error ⟨.memoryAddressFault, a⟩

/-- `MemWrite(a, 1, v)` behind the range check (20_memory.md R53, R54). -/
def writeMem (c : Config) (a : Nat) (v : Byte) (s : State) : Attempt :=
  if a < c.memSize then .ok { s with mem := s.mem.write a v } else .error ⟨.memoryAddressFault, a⟩

/-- Writes a byte where SP points, SP already decremented (43_stack.md R161, 44_control_flow.md R181). -/
def storeAtSp (c : Config) (v : Byte) (s : State) : Attempt := writeMem c s.sp.toNat v s

/-- Reads the byte SP points at, SP not yet incremented (43_stack.md R163, 44_control_flow.md R183). -/
def loadAtSp (c : Config) (s : State) : Except Raise Byte := readMem c s.sp.toNat s

/-! ## Output -/

/-- `emit(v)` (10_state.md R33). -/
def State.emit (s : State) (v : Byte) : State := { s with out := s.out ++ [v] }

/-! ## The program counter and the end of a step -/

/-- `pc <- zext_9(t)`: an absolute 8-bit target (44_control_flow.md R180). -/
def State.jumpTo (s : State) (t : Byte) : State := { s with pc := t.toNat }

/-- The general advance `pc <- pc + 1 + op[7:6]`, without wrap (40_engine.md R106, 10_state.md R26). -/
def advance (op : Byte) (s : State) : State := { s with pc := s.pc + 1 + operandCount op }

/-- An ordinary instruction's step: its rule, then the general advance (40_engine.md R106). -/
def finishOrdinary (c : Config) (m : Mnemonic) (s : State) (r : Attempt) : State := commit s (r.map (advance (c.opcode m)))

/-- A control-flow instruction's step: its rule alone writes the next pc (40_engine.md R107). -/
def finishControlFlow (s : State) (r : Attempt) : State := commit s r

end Sys2Proof.Machine
end

