-- ==== Sys2Proof/Machine/Operands.lean ====
section
/-! DEFINITION. The operand forms (30_encoding.md R73, R74): a register operand is checked by RegIdx (40_engine.md R104); a
literal is the whole byte as it stands. -/

namespace Sys2Proof.Machine

/-- `v[2:0]` as a register index. -/
def lowThreeBits (v : Byte) : RegIndex := ⟨v.toNat % 8, Nat.mod_lt _ (by decide)⟩

/-- `RegIdx(v)` (40_engine.md R104), over both policies. -/
def regIdx (c : Config) (v : Byte) : Except Raise RegIndex :=
  if h : v.toNat < 8 then .ok ⟨v.toNat, h⟩
  else
    match c.regIndexPolicy with
    | .fault => .error ⟨.registerIndexFault, v.toNat⟩
    | .mask3 => .ok (lowThreeBits v)

/-- LOAD_IMMEDIATE's literal: unsigned 0..255, no extension, scaling or shift, every value legal (30_encoding.md R74). -/
def literal (b : Byte) : Byte := b

end Sys2Proof.Machine
end

