-- ==== Sys2Proof/Machine/Alu.lean ====
section
/-! DEFINITION. The ALU and ADD, MULTIPLY, COMPARE (42_alu.md R140 to R148). Operands are converted to integers, the result is
exact, and it is reduced modulo 256 at the end (R148). -/

namespace Sys2Proof.Machine

/-- ADD's rule (R142, R143). -/
def addRule (c : Config) (a b : Byte) (s : State) : Attempt := do
  let i ← regIdx c a
  let j ← regIdx c b
  .ok (s.setReg i (wrapByte ((s.reg i).toNat + (s.reg j).toNat)))

/-- MULTIPLY's rule (R144, R145): the low 8 bits of the exact product. -/
def multiplyRule (c : Config) (a b : Byte) (s : State) : Attempt := do
  let i ← regIdx c a
  let j ← regIdx c b
  .ok (s.setReg i (wrapByte ((s.reg i).toNat * (s.reg j).toNat)))

/-- COMPARE's rule (R146, R147): all three flags, no register. -/
def compareRule (c : Config) (a b : Byte) (s : State) : Attempt := do
  let i ← regIdx c a
  let j ← regIdx c b
  .ok { s with flags := compareFlags (s.reg i) (s.reg j) }

/-- The ALU's operation select (R141). A select outside {Add, Multiply, Compare} carries the opcode byte that FR.info
reports (60_exceptions.md R200); the dispatcher never issues one (log 20). -/
inductive AluSelect where
  | add
  | multiply
  | compare
  | unsupported (op : Byte)
  deriving DecidableEq, Repr

/-- The ALU's interface (R140, R141): the selected operation over two register indexes, or UnsupportedAluOperation with no
effect. -/
def aluRequest (c : Config) (sel : AluSelect) (a b : Byte) (s : State) : Attempt :=
  match sel with
  | .add => addRule c a b s
  | .multiply => multiplyRule c a b s
  | .compare => compareRule c a b s
  | .unsupported op => .error ⟨.unsupportedAluOperation, op.toNat⟩

/-- ADD rA, rB (R142). -/
def execAdd (a b : Byte) (s : State) : Host.Outcome State Fault Refusal :=
  .next (finishOrdinary Config.machine .add s (aluRequest Config.machine .add a b s))

/-- MULTIPLY rA, rB (R144). -/
def execMultiply (a b : Byte) (s : State) : Host.Outcome State Fault Refusal :=
  .next (finishOrdinary Config.machine .multiply s (aluRequest Config.machine .multiply a b s))

/-- COMPARE rA, rB (R146). -/
def execCompare (a b : Byte) (s : State) : Host.Outcome State Fault Refusal :=
  .next (finishOrdinary Config.machine .compare s (aluRequest Config.machine .compare a b s))

end Sys2Proof.Machine
end

