-- ==== Sys2Proof/Machine/ControlFlow.lean ====
section
/-! DEFINITION. CALL, RETURN, JUMP, JUMP_IF_EQUAL and JUMP_IF_NOT_EQUAL (44_control_flow.md R180 to R191). Each rule alone
writes the next pc (40_engine.md R107). -/

namespace Sys2Proof.Machine

/-- CALL's rule (R181, R182): the return address pc + 2 must fit a byte (92_eei_decisions.md D15; log 13); the target is read
after the push. -/
def callRule (c : Config) (a : Byte) (s : State) : Attempt := do
  let i ← regIdx c a
  let returnAddress := s.pc + 2
  if returnAddress > 255 then .error ⟨.memoryAddressFault, returnAddress⟩
  else
    let s1 ← storeAtSp c (wrapByte returnAddress) s.decrementSp
    .ok (s1.jumpTo (s1.reg i))

/-- RETURN's rule (R183, R184). -/
def retRule (c : Config) (s : State) : Attempt := do
  let t ← loadAtSp c s
  .ok (s.incrementSp.jumpTo t)

/-- JUMP's rule (R185, R186). -/
def jumpRule (c : Config) (a : Byte) (s : State) : Attempt := do
  let i ← regIdx c a
  .ok (s.jumpTo (s.reg i))

/-- A conditional jump: taken, pc <- x[i]; not taken, pc + 2, the instruction's width. The index is checked either way
(40_engine.md R104). -/
def jumpIfRule (c : Config) (taken : Bool) (a : Byte) (s : State) : Attempt := do
  let i ← regIdx c a
  .ok (if taken then s.jumpTo (s.reg i) else { s with pc := s.pc + 2 })

/-- CALL rA (R181). -/
def execCall (a : Byte) (s : State) : Host.Outcome State Fault Refusal :=
  .next (finishControlFlow s (callRule Config.machine a s))

/-- RETURN (R183). -/
def execRet (s : State) : Host.Outcome State Fault Refusal :=
  .next (finishControlFlow s (retRule Config.machine s))

/-- JUMP rA (R185). -/
def execJump (a : Byte) (s : State) : Host.Outcome State Fault Refusal :=
  .next (finishControlFlow s (jumpRule Config.machine a s))

/-- JUMP_IF_EQUAL rA: taken when F.E is set (R187, R188). -/
def execJumpIfEqual (a : Byte) (s : State) : Host.Outcome State Fault Refusal :=
  .next (finishControlFlow s (jumpIfRule Config.machine s.flags.equal a s))

/-- JUMP_IF_NOT_EQUAL rA: taken when F.E is clear (R189, R190). -/
def execJumpIfNotEqual (a : Byte) (s : State) : Host.Outcome State Fault Refusal :=
  .next (finishControlFlow s (jumpIfRule Config.machine (!s.flags.equal) a s))

end Sys2Proof.Machine
end

