-- ==== Sys2Proof/Machine/HaltMoveOutput.lean ====
section
/-! DEFINITION. HALT, LOAD_IMMEDIATE and PRINT_REGISTER (41_halt_move_output.md R120 to R126). Each instruction has its rule
over any configuration and its meaning, which is the rule at the machine's. -/

namespace Sys2Proof.Machine

/-- HALT's rule (R121, R122): RS <- Halted; pc keeps the HALT's own address (40_engine.md R105). -/
def haltRule (s : State) : State := { s with rs := .halted }

/-- LOAD_IMMEDIATE's rule (R123, R124). -/
def loadImmediateRule (c : Config) (a imm : Byte) (s : State) : Attempt := do
  let i ← regIdx c a
  .ok (s.setReg i (literal imm))

/-- PRINT_REGISTER's rule (R125, R126). -/
def printRegisterRule (c : Config) (a : Byte) (s : State) : Attempt := do
  let i ← regIdx c a
  .ok (s.emit (s.reg i))

/-- HALT (R121). -/
def execHalt (s : State) : Host.Outcome State Fault Refusal := .next (haltRule s)

/-- LOAD_IMMEDIATE rA, imm (R123). -/
def execLoadImmediate (a imm : Byte) (s : State) : Host.Outcome State Fault Refusal :=
  .next (finishOrdinary Config.machine .loadImmediate s (loadImmediateRule Config.machine a imm s))

/-- PRINT_REGISTER rA (R125). -/
def execPrintRegister (a : Byte) (s : State) : Host.Outcome State Fault Refusal :=
  .next (finishOrdinary Config.machine .printRegister s (printRegisterRule Config.machine a s))

end Sys2Proof.Machine
end

