-- ==== Sys2Proof/Machine/Stack.lean ====
section
/-! DEFINITION. PUSH and POP (43_stack.md R160 to R165). Statements run in the rules' order, so a later one sees the writes of
an earlier one (00_scope.md R8, 92_eei_decisions.md D12; log 10). -/

namespace Sys2Proof.Machine

/-- PUSH's rule (R161, R162): x[i] is read after the decrement. -/
def pushRule (c : Config) (a : Byte) (s : State) : Attempt := do
  let i ← regIdx c a
  let s1 := s.decrementSp
  storeAtSp c (s1.reg i) s1

/-- POP's rule (R163, R164): x[7] is incremented after the write to x[i]. -/
def popRule (c : Config) (a : Byte) (s : State) : Attempt := do
  let i ← regIdx c a
  let v ← loadAtSp c s
  .ok (s.setReg i v).incrementSp

/-- PUSH rA (R161). -/
def execPush (a : Byte) (s : State) : Host.Outcome State Fault Refusal :=
  .next (finishOrdinary Config.machine .push s (pushRule Config.machine a s))

/-- POP rA (R163). -/
def execPop (a : Byte) (s : State) : Host.Outcome State Fault Refusal :=
  .next (finishOrdinary Config.machine .pop s (popRule Config.machine a s))

end Sys2Proof.Machine
end

