-- ==== Sys2Proof/Machine/Fetch.lean ====
section
/-! DEFINITION. Fetching and decoding one instruction (40_engine.md R101, R102, R103, R109), and the bytes a decoder could see
at pc. -/

namespace Sys2Proof.Machine

/-- `Fetch(a)` (20_memory.md R54). -/
def fetch (c : Config) (a : Nat) (s : State) : Except Raise Byte := readMem c a s

/-- An operand fetch: an operand the instruction does not have is not read, and stands as 0 where it is not used
(40_engine.md R103; log 16). -/
def fetchOperand (c : Config) (present : Bool) (a : Nat) (s : State) : Except Raise Byte :=
  if present then fetch c a s else .ok 0

/-- Operand a, then operand b, for an operand count of `n` (40_engine.md R103). -/
def fetchOperands (c : Config) (m : Mnemonic) (n : Nat) (s : State) : Except Raise Instr := do
  let a ← fetchOperand c (1 ≤ n) (s.pc + 1) s
  let b ← fetchOperand c (n = 2) (s.pc + 2) s
  .ok (assemble m a b)

/-- The first half of the step's pseudocode (40_engine.md R109): the opcode, its mnemonic, then exactly its `op[7:6]` operand
bytes. -/
def fetchInstr (c : Config) (s : State) : Except Raise Instr := do
  let op ← fetch c s.pc s
  match decodeOpcode c op with
  | none => .error ⟨.decodeFault, op.toNat⟩
  | some m => fetchOperands c m (operandCount op) s

/-- The bytes from an address on, at most `n` of them, those below `size` only. -/
def bytesFrom (size : Nat) (m : Memory) (a : Nat) : Nat → List Byte
  | 0 => []
  | n + 1 => if a < size then m.read a :: bytesFrom size m (a + 1) n else []

/-- The bytes that stand at pc, as far as memory and the longest instruction (3 bytes, 30_encoding.md R70) reach. -/
def State.bytesAtPc (c : Config) (s : State) : List Byte := bytesFrom c.memSize s.mem s.pc 3

end Sys2Proof.Machine
end

