-- ==== Sys2Proof/Machine/Step.lean ====
section
/-! DEFINITION. The step (40_engine.md R100, R109, R110), and placing an instruction where the next step fetches. -/

namespace Sys2Proof.Machine

/-- One atomic step, enabled only while RS = Running (R109). A fault of the fetch or the decoding is taken as any other
(60_exceptions.md R203). From Halted and Faulted there is no step (R110; log 15). -/
def step (s : State) : Host.Outcome State Fault Refusal :=
  match s.rs with
  | .running =>
    match fetchInstr Config.machine s with
    | .ok i => exec i s
    | .error r => .next (takeFault r s)
  | .halted => .fault .noStepFromHalted
  | .faulted => .fault .noStepFromFaulted

/-- `s` with an instruction of the opcode table, given as a number, stored at pc (log 21). -/
def State.withFetchWord (s : State) (nbits w : Nat) : State :=
  { s with mem := s.mem.writeBytes Config.machine.memSize s.pc (tableBytes nbits w) }

end Sys2Proof.Machine
end

