-- ==== Sys2Proof/Machine/Interface.lean ====
section
/-! DEFINITION. The interfaces of the block (10_state.md R34): reset with load (70_reset_and_hazards.md R230, R233), the status
port, what the host may see and do, and a run and its end (40_engine.md R112, R113). The memory port is `readMem` and
`writeMem` (Machine/Ops.lean); the output port is the field `out`. -/

namespace Sys2Proof.Machine

/-- RS on the status port (10_state.md R30): Running 0, Halted 1, Faulted 2. -/
def RunState.code : RunState → Nat
  | .running => 0
  | .halted => 1
  | .faulted => 2

/-- The cause code in FR (60_exceptions.md R200). -/
def Cause.code : Cause → Nat
  | .decodeFault => 1
  | .unsupportedAluOperation => 2
  | .registerIndexFault => 3
  | .memoryAddressFault => 4

/-- FR as the status port gives it: cause code, fpc, info (10_state.md R31). -/
def FaultRecord.codes (f : FaultRecord) : Nat × Nat × Nat := (f.cause.code, f.fpc, f.info)

/-- The status port: the code of RS and, when RS = Faulted, FR (10_state.md R34). -/
def State.statusPort (s : State) : Nat × Option (Nat × Nat × Nat) :=
  (s.rs.code, if s.rs = .faulted then s.fr.map FaultRecord.codes else none)

/-- Reset with a program image under a configuration: the image from address 0, 0 after it, every other piece of state at
its reset value (70_reset_and_hazards.md R230). An image longer than MEM_SIZE is refused and no run starts (R233). -/
def bootWith (c : Config) (image : List Byte) : Except Refusal State :=
  if image.length ≤ c.memSize then .ok { State.resetWith c with mem := Memory.writeBytes c.memSize [] 0 image }
  else .error (.imageTooLong image.length)

/-- Reset of the machine with a program image. -/
def boot (image : List Byte) : Except Refusal State := bootWith Config.machine image

/-- What the host can do to the core (10_state.md R34): it has no access to the state of a run in progress. -/
inductive HostAction where
  /-- Load an image and reset (70_reset_and_hazards.md R230). -/
  | loadAndReset (image : List Byte)
  /-- Look at the state (40_engine.md R113). -/
  | inspect
  deriving DecidableEq, Repr

/-- The state after a host action. A reset takes nothing over from the state before it (60_exceptions.md R211).
DESIGN CHOICE (log 33): a load and reset is accepted whatever RS is, Running included. 10_state.md R34 and
70_reset_and_hazards.md R230, R233 do not say what one does to a run in progress, and 92_eei_decisions.md D22 only forbids the
host to touch state then. -/
def hostAct (a : HostAction) (s : State) : Except Refusal State :=
  match a with
  | .loadAndReset image => boot image
  | .inspect => .ok s

/-- What an inspection shows: nothing while Running, the whole state after the end of the run (10_state.md R34,
40_engine.md R113, 92_eei_decisions.md D22). -/
def inspect (s : State) : Option State := if s.rs = .running then none else some s

/-- A run cut off after `k` steps: it stops by itself at the first state with RS ≠ Running (40_engine.md R112, R113). -/
def runFor : Nat → State → State
  | 0, s => s
  | k + 1, s =>
    match step s with
    | .next t => runFor k t
    | .fault _ => s
    | .refused _ => s

end Sys2Proof.Machine
end

