-- ==== Sys2Proof/Machine/Parametric.lean ====
section
/-! DEFINITION. The engine over every admitted configuration (00_scope.md R6, 60_exceptions.md R202): REG_INDEX_POLICY `mask3`,
a MEM_SIZE below 256, another OPCODE_MAP or SP_RESET. `exec` and `step` are these at `Config.machine`
(Laws/Parametric.lean proves it). -/

namespace Sys2Proof.Machine

/-- The handler of an instruction (the table of 40_engine.md R111): its writes, or the fault it raises. An ordinary
instruction's handler leaves the general advance to the engine. -/
def ruleWith (c : Config) (i : Instr) (s : State) : Attempt :=
  match i with
  | .halt => .ok (haltRule s)
  | .loadImmediate a imm => loadImmediateRule c a imm s
  | .printRegister a => printRegisterRule c a s
  | .add a b => aluRequest c .add a b s
  | .multiply a b => aluRequest c .multiply a b s
  | .compare a b => aluRequest c .compare a b s
  | .push a => pushRule c a s
  | .pop a => popRule c a s
  | .call a => callRule c a s
  | .ret => retRule c s
  | .jump a => jumpRule c a s
  | .jumpIfEqual a => jumpIfRule c s.flags.equal a s
  | .jumpIfNotEqual a => jumpIfRule c (!s.flags.equal) a s

/-- The end of a step by class of instruction: HALT and control flow get no general advance (40_engine.md R105, R107), the
ordinary instructions do (R106). -/
def finishWith (c : Config) (m : Mnemonic) (s : State) (r : Attempt) : State :=
  match m with
  | .halt | .call | .ret | .jump | .jumpIfEqual | .jumpIfNotEqual => finishControlFlow s r
  | .loadImmediate | .printRegister | .add | .multiply | .compare | .push | .pop => finishOrdinary c m s r

/-- One instruction's whole effect under a configuration: its handler, ended as its class says. -/
def execWith (c : Config) (i : Instr) (s : State) : State := finishWith c i.mnemonic s (ruleWith c i s)

/-- One step under a configuration (40_engine.md R109); `none` where no step exists (R110). -/
def stepWith (c : Config) (s : State) : Option State :=
  match s.rs with
  | .running =>
    match fetchInstr c s with
    | .ok i => some (execWith c i s)
    | .error r => some (takeFault r s)
  | .halted => none
  | .faulted => none

end Sys2Proof.Machine
end

