-- ==== Sys2Proof/Safety.lean ====
section
/-! DEFINITION. What counts as a safe state and a clean end, in the terms the statements use; the invariant of the machine; and
a declarative account of which fault a step meets first (60_exceptions.md R204). -/

namespace Sys2Proof.Machine

/-- The operand byte `a` names register `i`: it is a legal index (30_encoding.md R74) and `i` is that register. -/
abbrev Names (a : Byte) (i : RegIndex) : Prop := a.toNat = i.val

/-- RS and FR as they were; or a fault was taken, which writes RS and FR and nothing else (60_exceptions.md R203). -/
abbrev KeepsRunState (s t : State) : Prop :=
  (t.rs = s.rs ∧ t.fr = s.fr) ∨ ∃ cause info, t = { s with rs := .faulted, fr := some ⟨cause, s.pc, info⟩ }

/-- A clean end of a run (40_engine.md R113): RS = Halted. -/
abbrev State.cleanEnd (s : State) : Prop := s.rs = .halted

/-- An abnormal end of a run (40_engine.md R113): RS = Faulted, with FR. -/
abbrev State.abnormalEnd (s : State) : Prop := s.rs = .faulted

/-- At most one flag is set: none before the first COMPARE of a run, exactly one after it (10_state.md R28). -/
abbrev Flags.exclusive (f : Flags) : Prop :=
  ¬(f.equal = true ∧ f.less = true) ∧ ¬(f.equal = true ∧ f.greater = true) ∧ ¬(f.less = true ∧ f.greater = true)

/-- Exactly one flag is set (42_alu.md R147). -/
abbrev Flags.exactlyOne (f : Flags) : Prop := f.exclusive ∧ (f.equal = true ∨ f.less = true ∨ f.greater = true)

/-- A fault record a run of the machine can hold (60_exceptions.md R200, R201): an unknown opcode byte, an operand byte
8..255, or the address 256, the only one a run can name. UnsupportedAluOperation is reached by no opcode (42_alu.md R141). -/
abbrev FaultRecord.possible (f : FaultRecord) : Prop :=
  match f.cause with
  | .decodeFault => f.info ≤ 255 ∧ decodeOpcode Config.machine (wrapByte f.info) = none
  | .unsupportedAluOperation => False
  | .registerIndexFault => 8 ≤ f.info ∧ f.info ≤ 255
  | .memoryAddressFault => f.info = 256

/-- The invariant of the machine: memory is canonical and inside MEM_SIZE, pc is at most MEM_SIZE, at most one flag is set,
and FR is valid exactly when RS = Faulted and then names the pc and a possible cause. -/
structure State.Inv (s : State) : Prop where
  mem_wf : s.mem.wf Config.machine.memSize
  pc_le : s.pc ≤ Config.machine.memSize
  flags_exclusive : s.flags.exclusive
  fr_valid : s.rs = .faulted ↔ s.fr.isSome = true
  fr_possible : ∀ f, s.fr = some f → f.fpc = s.pc ∧ f.possible

/-- The fault the next step meets, if any, with its datum, in the priority order of 60_exceptions.md R204 written out over
the bytes at pc: opcode fetch, unknown opcode, operand fetch, register index a then b, CALL's return address. The stack
address check (6) cannot fail with MEM_SIZE = 256 (60_exceptions.md R201). -/
def State.firstFault (s : State) : Option (Cause × Nat) :=
  let op := s.mem.read s.pc
  let a := s.mem.read (s.pc + 1)
  let b := s.mem.read (s.pc + 2)
  if 256 ≤ s.pc then some (.memoryAddressFault, s.pc)
  else if op ∉ [0x01, 0x82, 0x47, 0xA0, 0xA2, 0xA7, 0x45, 0x46, 0x50, 0x11, 0x54, 0x55, 0x56] then
    some (.decodeFault, op.toNat)
  else if 1 ≤ op.toNat / 64 ∧ 256 ≤ s.pc + 1 then some (.memoryAddressFault, s.pc + 1)
  else if op.toNat / 64 = 2 ∧ 256 ≤ s.pc + 2 then some (.memoryAddressFault, s.pc + 2)
  else if 1 ≤ op.toNat / 64 ∧ 7 < a.toNat then some (.registerIndexFault, a.toNat)
  else if op ∈ [0xA0, 0xA2, 0xA7] ∧ 7 < b.toNat then some (.registerIndexFault, b.toNat)
  else if op = 0x50 ∧ 255 < s.pc + 2 then some (.memoryAddressFault, s.pc + 2)
  else none

end Sys2Proof.Machine
end

