-- ==== Sys2Proof/Certificates/Slice0/Obligations.lean ====
section
/-! DEFINITION. The statements about the machine, one `def Obligations.<Name> : Prop` each. Where a statement rests on a point
the source leaves open and this spec decides (spec/92_eei_decisions.md), its docstring names the decision and the log entry. -/

open Sys2Proof Sys2Proof.Machine

/-! ## Encoding -/

/-- 30_encoding.md, sections 1 and 2: decoding an encoded instruction gives it back, with every operand at every one of its
256 values and whatever bytes follow; under the machine's opcode values (the spec's decision D1, log 4) and under every
configuration the spec admits. -/
def Obligations.DecodeInvertsEncode : Prop :=
  (∀ (i : Instr) (rest : List Byte), decode (encode i ++ rest) = .ok (i, rest)) ∧
    ∀ c : Config, c.Admitted →
      ∀ (i : Instr) (rest : List Byte), decodeWith c (encodeWith c i ++ rest) = .ok (i, rest)

/-- 30_encoding.md, section 2: bytes that decode are exactly an instruction's encoding and the bytes after it, so no two
encodings stand for one instruction and every operand bit is read; under every admitted configuration. -/
def Obligations.DecodedBytesAreTheEncoding : Prop :=
  ∀ c : Config, c.Admitted → ∀ (bs : List Byte) (i : Instr) (rest : List Byte),
    decodeWith c bs = .ok (i, rest) → bs = encodeWith c i ++ rest

/-- 30_encoding.md, section 2, and 95_test_vectors.md: words written out from the encoding of one instruction of each family
decode to it, and unknown opcodes are refused (the opcode values are the spec's decision D1, log 4). -/
def Obligations.SpecWordsDecode : Prop :=
  decode [0x01] = .ok (.halt, []) ∧ decode [0x82, 0x03, 0xFF] = .ok (.loadImmediate 3 255, []) ∧
    decode [0x47, 0x05, 0x01] = .ok (.printRegister 5, [0x01]) ∧ decode [0xA0, 0x00, 0x01] = .ok (.add 0 1, []) ∧
    decode [0xA7, 0x00, 0xFF] = .ok (.compare 0 255, []) ∧ decode [0x45, 0x07] = .ok (.push 7, []) ∧
    decode [0x50, 0x01] = .ok (.call 1, []) ∧ decode [0x11, 0x00] = .ok (.ret, [0x00]) ∧
    decode [0x56, 0x03] = .ok (.jumpIfNotEqual 3, []) ∧ decode [0x00] = .error (.unknownOpcode 0x00) ∧
    decode [0xA8, 0x00, 0x00] = .error (.unknownOpcode 0xA8)

/-- 30_encoding.md R72: operand_count(op) = op[7:6], the general advance is pc <- pc + 1 + operand_count(op), and no opcode
has the value 3, so every byte 0xC0..0xFF is unknown. -/
def Obligations.OperandCountIsTheTopTwoBits : Prop :=
  (∀ op : Byte, operandCount op = op.toNat / 64) ∧
    (∀ (op : Byte) (s : State), advance op s = { s with pc := s.pc + 1 + op.toNat / 64 }) ∧
    (∀ m : Mnemonic, operandCount (opcodeMap m) ≤ 2) ∧
    ∀ op : Byte, 0xC0 ≤ op.toNat → decodeOpcode Config.machine op = none

/-! ## The step -/

/-- 40_engine.md, section 1: when the bytes at pc decode to an instruction, a step of a running machine is that instruction's
effect and nothing around it: `exec` includes the pc update. An operand byte outside 0..7 is no exception. -/
def Obligations.StepRunsDecodedInstruction : Prop :=
  ∀ (s : State) (i : Instr) (rest : List Byte), s.rs = .running →
    decode (s.bytesAtPc Config.machine) = .ok (i, rest) → step s = exec i s

/-- 40_engine.md, section 1, the fetch: an opcode fetch at pc ≥ MEM_SIZE is MemoryAddressFault(pc) (the spec's decisions D8
and D11, logs 6 and 8). -/
def Obligations.OpcodeFetchPastEndFaults : Prop :=
  ∀ s : State, s.rs = .running → 256 ≤ s.pc →
    step s = .next { s with rs := .faulted, fr := some ⟨.memoryAddressFault, s.pc, s.pc⟩ }

/-- 40_engine.md R102: an opcode byte that is not one of the 13 values is DecodeFault(op), with no partial effect, not advanced
past, and with no operand byte fetched for it (so at the last address of memory it is no memory fault). -/
def Obligations.UnknownOpcodeFaults : Prop :=
  ∀ (s : State) (op : Byte), s.rs = .running → s.pc < 256 → s.mem.read s.pc = op → (∀ m : Mnemonic, opcodeMap m ≠ op) →
    step s = .next { s with rs := .faulted, fr := some ⟨.decodeFault, s.pc, op.toNat⟩ }

/-- 40_engine.md, section 1, the operand fetch: a known opcode whose operand byte number k is the first past the end of memory
is MemoryAddressFault at that byte's address (D8, log 6; only used operand bytes are fetched, D10, log 16). -/
def Obligations.OperandFetchPastEndFaults : Prop :=
  ∀ (s : State) (m : Mnemonic) (k : Nat), s.rs = .running → s.mem.read s.pc = opcodeMap m → 1 ≤ k →
    k ≤ m.format.operandBytes → s.pc + k = 256 →
    step s = .next { s with rs := .faulted, fr := some ⟨.memoryAddressFault, s.pc, s.pc + k⟩ }

/-- 40_engine.md R110: no step leaves Halted or Faulted, and no host action does other than a reset, which leads to
Running. -/
def Obligations.TerminalStatesAreLeftByResetOnly : Prop :=
  ∀ s : State, s.rs ≠ .running →
    (∀ t, step s ≠ .next t) ∧ hostAct .inspect s = .ok s ∧
      ∀ (image : List Byte) (t : State), hostAct (.loadAndReset image) s = .ok t → t.rs = .running

/-- 70_reset_and_hazards.md, section 4: while RS = Running the core always takes another step (D18, log 29): it neither stops
nor refuses, whatever the state. -/
def Obligations.RunningAlwaysSteps : Prop :=
  ∀ s : State, s.rs = .running → ∃ t, step s = .next t

/-- 40_engine.md, section 2, and 44_control_flow.md, section 1: where a step can leave pc. It stays when the step ends in Halted
or Faulted; else it advances by 1 + op[7:6] without wrap, or a control-flow opcode sets it to an 8-bit target (D11, log 8;
the opcode bytes 0x50, 0x11, 0x54, 0x55, 0x56 are D1, log 4). -/
def Obligations.StepPcSuccessors : Prop :=
  ∀ s t : State, s.rs = .running → step s = .next t →
    (t.rs ≠ .running ∧ t.pc = s.pc) ∨
      (t.rs = .running ∧ s.pc < 256 ∧
        (t.pc = s.pc + 1 + (s.mem.read s.pc).toNat / 64 ∨
          (s.mem.read s.pc ∈ ([0x50, 0x11, 0x54, 0x55, 0x56] : List Byte) ∧ ∃ v : Byte, t.pc = v.toNat)))

/-- 60_exceptions.md, section 2, the priority: a step faults exactly when the declarative chain `State.firstFault` names a fault,
then with that cause and datum and no other effect; else it completes with FR untouched (D24, log 17; the 13 opcode
bytes the chain writes out are D1, log 4). -/
def Obligations.FirstFaultDecidesTheStep : Prop :=
  ∀ s : State, s.rs = .running →
    match s.firstFault with
    | some (cause, info) => step s = .next { s with rs := .faulted, fr := some ⟨cause, s.pc, info⟩ }
    | none => ∃ t, step s = .next t ∧ t.rs ≠ .faulted ∧ t.fr = s.fr

/-! ## Faults -/

/-- 60_exceptions.md R203: when the fetch, the decoding or the instruction's handler raises cause c with datum d, the step ends
with RS <- Faulted and FR <- (c, pc, d), and none of the instruction's writes take effect: registers, pc, flags, memory and
output are as before (for every fault: D25, log 18). Every step that ends in Faulted is such a step. -/
def Obligations.FaultWritesRunStateAndRecordOnly : Prop :=
  (∀ (i : Instr) (s : State) (r : Raise), ruleWith Config.machine i s = .error r →
      exec i s = .next { s with rs := .faulted, fr := some ⟨r.cause, s.pc, r.info⟩ }) ∧
    (∀ (i : Instr) (s : State) (r : Raise), s.rs = .running → fetchInstr Config.machine s = .ok i →
      ruleWith Config.machine i s = .error r →
      step s = .next { s with rs := .faulted, fr := some ⟨r.cause, s.pc, r.info⟩ }) ∧
    (∀ (s : State) (r : Raise), s.rs = .running → fetchInstr Config.machine s = .error r →
      step s = .next { s with rs := .faulted, fr := some ⟨r.cause, s.pc, r.info⟩ }) ∧
    ∀ s t : State, s.rs = .running → step s = .next t → t.rs = .faulted →
      ∃ r : Raise, t = { s with rs := .faulted, fr := some ⟨r.cause, s.pc, r.info⟩ } ∧
        (fetchInstr Config.machine s = .error r ∨
          ∃ i, fetchInstr Config.machine s = .ok i ∧ ruleWith Config.machine i s = .error r)

/-- 40_engine.md, section 1, RegIdx, and 60_exceptions.md, sections 1 and 2: of any instruction's register operands the first
outside 0..7 is raised as RegisterIndexFault (D7, log 5), a before b (the priority of 60_exceptions.md, section 2: D24, log 17);
a conditional jump's too, taken or not. -/
def Obligations.FirstIllegalRegisterOperandFaults : Prop :=
  ∀ (i : Instr) (s : State) (v : Byte), (i.registerOperands.find? fun r => decide (7 < r.toNat)) = some v →
    exec i s = .next { s with rs := .faulted, fr := some ⟨.registerIndexFault, s.pc, v.toNat⟩ }

/-- 44_control_flow.md, section 2: a CALL of a legal register whose return address pc + 2 exceeds 255 is
MemoryAddressFault(pc + 2), with no effect (the spec's decision D15, log 13). -/
def Obligations.CallWithUnstorableReturnAddressFaults : Prop :=
  ∀ (a : Byte) (i : RegIndex) (s : State), Names a i → 255 < s.pc + 2 →
    exec (.call a) s = .next { s with rs := .faulted, fr := some ⟨.memoryAddressFault, s.pc, s.pc + 2⟩ }

/-- 42_alu.md, section 1: an ALU select outside {Add, Multiply, Compare} is UnsupportedAluOperation with no effect, under every
configuration (D29, log 20) and before the operands are checked (the model's choice, log 32); and no step of the machine writes
that cause into FR (D3). -/
def Obligations.UnsupportedAluSelectFaultsAndIsUnreachable : Prop :=
  (∀ (c : Config) (op a b : Byte) (s : State),
      commit s (aluRequest c (.unsupported op) a b s) =
        { s with rs := .faulted, fr := some ⟨.unsupportedAluOperation, s.pc, op.toNat⟩ }) ∧
    ∀ (s t : State) (f : FaultRecord), step s = .next t → t.fr = some f →
      s.fr = some f ∨ f.cause ≠ .unsupportedAluOperation

/-- 40_engine.md, section 1, RegIdx over both policies: an index up to 7 is taken; above, `fault` raises
RegisterIndexFault and `mask3` takes the low three bits (D7, log 5). -/
def Obligations.RegIdxByPolicy : Prop :=
  ∀ (c : Config) (v : Byte),
    (∀ i : RegIndex, Names v i → regIdx c v = .ok i) ∧
      (7 < v.toNat → c.regIndexPolicy = .fault → regIdx c v = .error ⟨.registerIndexFault, v.toNat⟩) ∧
      (7 < v.toNat → c.regIndexPolicy = .mask3 → ∃ i : RegIndex, regIdx c v = .ok i ∧ i.val = v.toNat % 8)

/-- 60_exceptions.md, section 1: under REG_INDEX_POLICY = mask3 cause 3 is never raised, by any step of any configuration
(D7, log 5). -/
def Obligations.MaskPolicyNeverRaisesIndexFault : Prop :=
  ∀ (c : Config) (s t : State) (f : FaultRecord), c.regIndexPolicy = .mask3 → stepWith c s = some t → t.fr = some f →
    s.fr = some f ∨ f.cause ≠ .registerIndexFault

/-- 43_stack.md and 44_control_flow.md, the stack address checks: under a configuration whose MEM_SIZE does not reach the stack
address, PUSH and CALL fault at the decremented SP, POP and RETURN at SP, with no effect (only possible below 256 bytes: log 30;
the fault is D8, log 6, the wrap of SP D14, log 12, CALL's order of checks D24, log 17). -/
def Obligations.StackAddressFaultsInSmallMemory : Prop :=
  ∀ (c : Config) (a : Byte) (i : RegIndex) (s : State), Names a i →
    (c.memSize ≤ (s.reg 7 - 1).toNat →
        execWith c (.push a) s =
          { s with rs := .faulted, fr := some ⟨.memoryAddressFault, s.pc, (s.reg 7 - 1).toNat⟩ }) ∧
      (c.memSize ≤ (s.reg 7 - 1).toNat → s.pc + 2 ≤ 255 →
        execWith c (.call a) s =
          { s with rs := .faulted, fr := some ⟨.memoryAddressFault, s.pc, (s.reg 7 - 1).toNat⟩ }) ∧
      (c.memSize ≤ (s.reg 7).toNat →
        execWith c (.pop a) s = { s with rs := .faulted, fr := some ⟨.memoryAddressFault, s.pc, (s.reg 7).toNat⟩ }) ∧
      (c.memSize ≤ (s.reg 7).toNat →
        execWith c .ret s = { s with rs := .faulted, fr := some ⟨.memoryAddressFault, s.pc, (s.reg 7).toNat⟩ })

/-! ## What each instruction does, on every operand that names a register -/

/-- 41_halt_move_output.md, HALT: RS <- Halted, everything else kept, pc too. -/
def Obligations.HaltCompletes : Prop :=
  ∀ s : State, exec .halt s = .next { s with rs := .halted }

/-- 41_halt_move_output.md, LOAD_IMMEDIATE: the literal is stored unchanged, into SP too when a = 7, whatever the literal. -/
def Obligations.LoadImmediateCompletes : Prop :=
  ∀ (a imm : Byte) (i : RegIndex) (s : State), Names a i →
    ∃ t, exec (.loadImmediate a imm) s = .next t ∧ t.reg i = imm ∧ (∀ k, k ≠ i → t.reg k = s.reg k) ∧
      t.pc = s.pc + 3 ∧ t.flags = s.flags ∧ t.rs = s.rs ∧ t.fr = s.fr ∧ t.mem = s.mem ∧ t.out = s.out

/-- 41_halt_move_output.md, PRINT_REGISTER: the register's value is appended to OUT, SP's too when a = 7. -/
def Obligations.PrintRegisterCompletes : Prop :=
  ∀ (a : Byte) (i : RegIndex) (s : State), Names a i →
    exec (.printRegister a) s = .next { s with out := s.out ++ [s.reg i], pc := s.pc + 2 }

/-- 42_alu.md, ADD: the exact sum modulo 256, a = b and a = 7 included; no flag. -/
def Obligations.AddCompletes : Prop :=
  ∀ (a b : Byte) (i j : RegIndex) (s : State), Names a i → Names b j →
    ∃ t, exec (.add a b) s = .next t ∧ (t.reg i).toNat = ((s.reg i).toNat + (s.reg j).toNat) % 256 ∧
      (∀ k, k ≠ i → t.reg k = s.reg k) ∧
      t.pc = s.pc + 3 ∧ t.flags = s.flags ∧ t.rs = s.rs ∧ t.fr = s.fr ∧ t.mem = s.mem ∧ t.out = s.out

/-- 42_alu.md, MULTIPLY: the exact product modulo 256; the high byte is kept nowhere; no flag. -/
def Obligations.MultiplyCompletes : Prop :=
  ∀ (a b : Byte) (i j : RegIndex) (s : State), Names a i → Names b j →
    ∃ t, exec (.multiply a b) s = .next t ∧ (t.reg i).toNat = ((s.reg i).toNat * (s.reg j).toNat) % 256 ∧
      (∀ k, k ≠ i → t.reg k = s.reg k) ∧
      t.pc = s.pc + 3 ∧ t.flags = s.flags ∧ t.rs = s.rs ∧ t.fr = s.fr ∧ t.mem = s.mem ∧ t.out = s.out

/-- 42_alu.md, COMPARE: all three flags from the unsigned comparison; no register, memory byte or output. -/
def Obligations.CompareCompletes : Prop :=
  ∀ (a b : Byte) (i j : RegIndex) (s : State), Names a i → Names b j →
    ∃ t, exec (.compare a b) s = .next t ∧
      (t.flags.equal = true ↔ (s.reg i).toNat = (s.reg j).toNat) ∧
      (t.flags.less = true ↔ (s.reg i).toNat < (s.reg j).toNat) ∧
      (t.flags.greater = true ↔ (s.reg j).toNat < (s.reg i).toNat) ∧
      (∀ k, t.reg k = s.reg k) ∧ t.pc = s.pc + 3 ∧ t.rs = s.rs ∧ t.fr = s.fr ∧ t.mem = s.mem ∧ t.out = s.out

/-- 43_stack.md, PUSH: SP <- SP - 1 modulo 256, then x[a], read after the decrement, is written where SP points; so PUSH r7
stores the decremented SP (D12, log 10; the wrap is D14, log 12). -/
def Obligations.PushCompletes : Prop :=
  ∀ (a : Byte) (i : RegIndex) (s : State), Names a i →
    ∃ t, exec (.push a) s = .next t ∧ t.reg 7 = s.reg 7 - 1 ∧ (∀ k, k ≠ 7 → t.reg k = s.reg k) ∧
      t.mem.read (s.reg 7 - 1).toNat = (if i = 7 then s.reg 7 - 1 else s.reg i) ∧
      (∀ addr, addr ≠ (s.reg 7 - 1).toNat → t.mem.read addr = s.mem.read addr) ∧
      t.pc = s.pc + 2 ∧ t.flags = s.flags ∧ t.rs = s.rs ∧ t.fr = s.fr ∧ t.out = s.out

/-- 43_stack.md, POP: x[a] <- MEM[SP], then SP <- SP + 1 modulo 256 read after that write; so POP r7 leaves MEM[SP] + 1
(D12, log 10; D14, log 12). Memory keeps the byte. -/
def Obligations.PopCompletes : Prop :=
  ∀ (a : Byte) (i : RegIndex) (s : State), Names a i →
    ∃ t, exec (.pop a) s = .next t ∧
      (i ≠ 7 → t.reg i = s.mem.read (s.reg 7).toNat ∧ t.reg 7 = s.reg 7 + 1) ∧
      (i = 7 → t.reg 7 = s.mem.read (s.reg 7).toNat + 1) ∧ (∀ k, k ≠ i → k ≠ 7 → t.reg k = s.reg k) ∧
      t.pc = s.pc + 2 ∧ t.flags = s.flags ∧ t.rs = s.rs ∧ t.fr = s.fr ∧ t.mem = s.mem ∧ t.out = s.out

/-- 44_control_flow.md, CALL: pc + 2 is pushed and pc becomes x[a], read after the push, so CALL r7 jumps to the decremented SP
(D12, log 10). The return address must fit a byte (D15, log 13). -/
def Obligations.CallCompletes : Prop :=
  ∀ (a : Byte) (i : RegIndex) (s : State), Names a i → s.pc + 2 ≤ 255 →
    ∃ t, exec (.call a) s = .next t ∧ t.reg 7 = s.reg 7 - 1 ∧ (∀ k, k ≠ 7 → t.reg k = s.reg k) ∧
      (t.mem.read (s.reg 7 - 1).toNat).toNat = s.pc + 2 ∧
      (∀ addr, addr ≠ (s.reg 7 - 1).toNat → t.mem.read addr = s.mem.read addr) ∧
      t.pc = (if i = 7 then s.reg 7 - 1 else s.reg i).toNat ∧
      t.flags = s.flags ∧ t.rs = s.rs ∧ t.fr = s.fr ∧ t.out = s.out

/-- 44_control_flow.md, RETURN: the byte at SP becomes pc and SP <- SP + 1 modulo 256 (D14, log 12). -/
def Obligations.ReturnCompletes : Prop :=
  ∀ s : State, ∃ t, exec .ret s = .next t ∧ t.pc = (s.mem.read (s.reg 7).toNat).toNat ∧ t.reg 7 = s.reg 7 + 1 ∧
    (∀ k, k ≠ 7 → t.reg k = s.reg k) ∧
    t.flags = s.flags ∧ t.rs = s.rs ∧ t.fr = s.fr ∧ t.mem = s.mem ∧ t.out = s.out

/-- 44_control_flow.md, JUMP: pc <- x[a], an absolute address; nothing else. -/
def Obligations.JumpCompletes : Prop :=
  ∀ (a : Byte) (i : RegIndex) (s : State), Names a i → exec (.jump a) s = .next { s with pc := (s.reg i).toNat }

/-- 44_control_flow.md, JUMP_IF_EQUAL: pc <- x[a] if F.E, else pc + 2; nothing else. -/
def Obligations.JumpIfEqualCompletes : Prop :=
  ∀ (a : Byte) (i : RegIndex) (s : State), Names a i →
    exec (.jumpIfEqual a) s = .next { s with pc := if s.flags.equal = true then (s.reg i).toNat else s.pc + 2 }

/-- 44_control_flow.md, JUMP_IF_NOT_EQUAL: pc <- x[a] if not F.E, else pc + 2; nothing else. -/
def Obligations.JumpIfNotEqualCompletes : Prop :=
  ∀ (a : Byte) (i : RegIndex) (s : State), Names a i →
    exec (.jumpIfNotEqual a) s = .next { s with pc := if s.flags.equal = true then s.pc + 2 else (s.reg i).toNat }

/-! ## Frames: what an instruction leaves unchanged, on every next state, a taken fault included -/

/-- 41_halt_move_output.md and 42_alu.md: LOAD_IMMEDIATE, ADD and MULTIPLY write their destination register x[a] alone. -/
def Obligations.RegisterResultFrame : Prop :=
  ∀ (a b : Byte) (s t : State),
    exec (.loadImmediate a b) s = .next t ∨ exec (.add a b) s = .next t ∨ exec (.multiply a b) s = .next t →
    (∀ k : RegIndex, ¬Names a k → t.reg k = s.reg k) ∧ t.flags = s.flags ∧ t.out = s.out ∧
      (∀ addr, t.mem.read addr = s.mem.read addr) ∧ KeepsRunState s t

/-- 41_halt_move_output.md and 42_alu.md: PRINT_REGISTER changes no register, flag or memory byte; COMPARE no register, memory
byte or output. -/
def Obligations.PrintAndCompareFrame : Prop :=
  ∀ (a b : Byte) (s t : State),
    (exec (.printRegister a) s = .next t →
        (∀ k, t.reg k = s.reg k) ∧ t.flags = s.flags ∧ (∀ addr, t.mem.read addr = s.mem.read addr) ∧ KeepsRunState s t) ∧
      (exec (.compare a b) s = .next t →
        (∀ k, t.reg k = s.reg k) ∧ t.out = s.out ∧ (∀ addr, t.mem.read addr = s.mem.read addr) ∧ KeepsRunState s t)

/-- 43_stack.md and 44_control_flow.md: PUSH and CALL write SP, and of memory only the one byte at the decremented SP (its
wrap is D14, log 12). -/
def Obligations.PushAndCallFrame : Prop :=
  ∀ (a : Byte) (s t : State), exec (.push a) s = .next t ∨ exec (.call a) s = .next t →
    (∀ k, k ≠ 7 → t.reg k = s.reg k) ∧ t.flags = s.flags ∧ t.out = s.out ∧
      (∀ addr, addr ≠ s.decrementSp.sp.toNat → t.mem.read addr = s.mem.read addr) ∧ KeepsRunState s t

/-- 43_stack.md and 44_control_flow.md: POP writes x[a] and SP, RETURN SP; neither writes memory. -/
def Obligations.PopAndReturnFrame : Prop :=
  ∀ (a : Byte) (s t : State),
    (exec (.pop a) s = .next t →
        (∀ k : RegIndex, ¬Names a k → k ≠ 7 → t.reg k = s.reg k) ∧ t.flags = s.flags ∧ t.out = s.out ∧
          (∀ addr, t.mem.read addr = s.mem.read addr) ∧ KeepsRunState s t) ∧
      (exec .ret s = .next t →
        (∀ k, k ≠ 7 → t.reg k = s.reg k) ∧ t.flags = s.flags ∧ t.out = s.out ∧
          (∀ addr, t.mem.read addr = s.mem.read addr) ∧ KeepsRunState s t)

/-- 41_halt_move_output.md and 44_control_flow.md: the three jumps and HALT change no register, flag, memory byte or output;
HALT keeps pc and FR and sets RS to Halted, the jumps keep RS and FR unless they fault. -/
def Obligations.JumpAndHaltFrame : Prop :=
  ∀ (a : Byte) (s t : State),
    (exec (.jump a) s = .next t ∨ exec (.jumpIfEqual a) s = .next t ∨ exec (.jumpIfNotEqual a) s = .next t →
        (∀ k, t.reg k = s.reg k) ∧ t.flags = s.flags ∧ t.out = s.out ∧
          (∀ addr, t.mem.read addr = s.mem.read addr) ∧ KeepsRunState s t) ∧
      (exec .halt s = .next t →
        (∀ k, t.reg k = s.reg k) ∧ t.flags = s.flags ∧ t.out = s.out ∧
          (∀ addr, t.mem.read addr = s.mem.read addr) ∧ t.pc = s.pc ∧ t.fr = s.fr ∧ t.rs = .halted)

/-! ## Rules about the whole machine -/

/-- 10_state.md R27: only COMPARE writes the flags; no instruction reads Less or Greater, and only JUMP_IF_EQUAL and
JUMP_IF_NOT_EQUAL read Equal: with other values of what is not read, an instruction does the same to all that is not a flag. -/
def Obligations.FlagsAreWrittenByCompareAndEqualIsReadByJumps : Prop :=
  (∀ (i : Instr) (s t : State), exec i s = .next t → (∀ a b, i ≠ .compare a b) → t.flags = s.flags) ∧
    (∀ (i : Instr) (s t : State) (l g : Bool), exec i s = .next t →
      ∃ f, exec i { s with flags := { s.flags with less := l, greater := g } } = .next { t with flags := f }) ∧
    ∀ (i : Instr) (s t : State) (f : Flags), exec i s = .next t →
      (∀ a, i ≠ .jumpIfEqual a ∧ i ≠ .jumpIfNotEqual a) →
      ∃ f', exec i { s with flags := f } = .next { t with flags := f' }

/-- 10_state.md, section 6: only PRINT_REGISTER emits, and then one value, its register's, at the end of OUT; nothing is ever
taken out of OUT (D19, log 19). -/
def Obligations.OnlyPrintRegisterEmits : Prop :=
  ∀ (i : Instr) (s t : State), exec i s = .next t →
    t.out = s.out ∨ ∃ (a : Byte) (k : RegIndex), i = .printRegister a ∧ Names a k ∧ t.out = s.out ++ [s.reg k]

/-- 20_memory.md, section 1: of the 13 instructions only PUSH and CALL (opcodes 0x45 and 0x50: D1, log 4) write memory; a step
whose fetch faults does not, a PUSH's or CALL's own operand fetch included. -/
def Obligations.OnlyPushAndCallWriteMemory : Prop :=
  (∀ (i : Instr) (s t : State), exec i s = .next t → (∀ a, i ≠ .push a ∧ i ≠ .call a) → t.mem = s.mem) ∧
    (∀ s t : State, step s = .next t → s.mem.read s.pc ∉ ([0x45, 0x50] : List Byte) → t.mem = s.mem) ∧
    ∀ (s t : State) (r : Raise), fetchInstr Config.machine s = .error r → step s = .next t → t.mem = s.mem

/-- 10_state.md, section 2, the register-use table: a register an instruction changes is one the table names for it. -/
def Obligations.RegisterWriteTable : Prop :=
  ∀ (i : Instr) (s t : State) (k : RegIndex), exec i s = .next t → t.reg k ≠ s.reg k →
    match i with
    | .loadImmediate a _ => Names a k
    | .add a _ => Names a k
    | .multiply a _ => Names a k
    | .push _ => k = 7
    | .pop a => Names a k ∨ k = 7
    | .call _ => k = 7
    | .ret => k = 7
    | .halt => False
    | .printRegister _ => False
    | .compare _ _ => False
    | .jump _ => False
    | .jumpIfEqual _ => False
    | .jumpIfNotEqual _ => False

/-- 10_state.md, section 2, the register-use table: a register that no register operand names and that is not SP is not read: with
another value in it, the instruction does the same to everything else and keeps it. -/
def Obligations.UnnamedRegistersAreNotRead : Prop :=
  ∀ (i : Instr) (s t : State) (k : RegIndex) (v : Byte), exec i s = .next t → k ≠ 7 →
    (∀ r ∈ i.registerOperands, ¬Names r k) → exec i (s.setReg k v) = .next (t.setReg k v)

/-- 10_state.md, section 5, and 41_halt_move_output.md: a step ends in Halted exactly when the opcode byte at pc is HALT's
(0x01: D1, log 4). -/
def Obligations.HaltedExactlyByHalt : Prop :=
  ∀ s t : State, step s = .next t → (t.rs = .halted ↔ s.pc < 256 ∧ s.mem.read s.pc = 0x01)

/-- 40_engine.md R106: a step of an ordinary instruction performs its rule with the fetched operands and then advances pc by
1 + op[7:6], without wrap. -/
def Obligations.OrdinaryStepAdvances : Prop :=
  ∀ (s t : State) (i : Instr), s.rs = .running → fetchInstr Config.machine s = .ok i →
    i.mnemonic ∈ ([.loadImmediate, .printRegister, .add, .multiply, .compare, .push, .pop] : List Mnemonic) →
    step s = .next t →
    exec i s = .next t ∧ (t.rs ≠ .faulted → t.pc = s.pc + 1 + (s.mem.read s.pc).toNat / 64)

/-- 40_engine.md, section 2, and 44_control_flow.md, sections 2 to 6: a step of a control-flow instruction that does not fault
ends in the very state its handler gives, with no general advance; so pc is the target or, for a conditional jump not taken,
pc + 2. CALL's target is x[a] as it is after the push (D12, log 10). -/
def Obligations.ControlFlowSetsPc : Prop :=
  ∀ (s t : State) (i : Instr), s.rs = .running → fetchInstr Config.machine s = .ok i →
    i.mnemonic ∈ ([.call, .ret, .jump, .jumpIfEqual, .jumpIfNotEqual] : List Mnemonic) →
    step s = .next t → t.rs ≠ .faulted →
    exec i s = .next t ∧ ruleWith Config.machine i s = .ok t ∧
    match i with
    | .call a => ∃ k : RegIndex, Names a k ∧ t.pc = (t.reg k).toNat
    | .ret => t.pc = (s.mem.read s.sp.toNat).toNat
    | .jump a => ∃ k : RegIndex, Names a k ∧ t.pc = (s.reg k).toNat
    | .jumpIfEqual a => ∃ k : RegIndex, Names a k ∧ t.pc = if s.flags.equal = true then (s.reg k).toNat else s.pc + 2
    | .jumpIfNotEqual a => ∃ k : RegIndex, Names a k ∧ t.pc = if s.flags.equal = true then s.pc + 2 else (s.reg k).toNat
    | _ => True

/-- 42_alu.md, COMPARE's corner cases: after a COMPARE exactly one flag is set; with a = b it is Equal; and that
exactly one flag is set stays so through any instruction that is no COMPARE. -/
def Obligations.CompareSetsExactlyOneFlag : Prop :=
  (∀ (a b : Byte) (i j : RegIndex) (s t : State), Names a i → Names b j → exec (.compare a b) s = .next t →
      t.flags.exactlyOne ∧ (a = b → t.flags = ⟨true, false, false⟩)) ∧
    ∀ (i : Instr) (s t : State), exec i s = .next t → (∀ a b, i ≠ .compare a b) → s.flags.exactlyOne →
      t.flags.exactlyOne

/-- 43_stack.md, sections 2 and 3, the round trip: PUSH rA then POP rA restores every register, SP and r7 included, and memory
keeps the pushed byte; PUSH rA then POP rB copies, for A and B other than 7 (D12, log 10). -/
def Obligations.PushThenPopRestores : Prop :=
  ∀ (a b : Byte) (i j : RegIndex) (s : State), Names a i → Names b j →
    ∃ t, exec (.push a) s = .next t ∧
      (∃ u, exec (.pop a) t = .next u ∧ u.regs = s.regs ∧ u.pc = s.pc + 4 ∧ u.mem = t.mem ∧
        u.mem.read (s.reg 7 - 1).toNat = (if i = 7 then s.reg 7 - 1 else s.reg i)) ∧
      (i ≠ 7 → j ≠ 7 → ∃ u, exec (.pop b) t = .next u ∧ u.reg j = s.reg i ∧ u.reg 7 = s.reg 7 ∧
        ∀ k, k ≠ j → u.reg k = s.reg k)

/-- 44_control_flow.md, RETURN's corner cases: a RETURN in any state that has SP as the CALL left it and that stack byte
untouched resumes at call_pc + 2, with SP as before the CALL (the wrap of SP is D14, log 12; the bound on the return address D15,
log 13). -/
def Obligations.ReturnResumesAfterCall : Prop :=
  ∀ (a : Byte) (i : RegIndex) (s t u : State), Names a i → s.pc + 2 ≤ 255 → exec (.call a) s = .next t →
    u.reg 7 = t.reg 7 → u.mem.read (u.reg 7).toNat = t.mem.read (t.reg 7).toNat →
    ∃ w, exec .ret u = .next w ∧ w.pc = s.pc + 2 ∧ w.reg 7 = s.reg 7

/-- 44_control_flow.md, JUMP_IF_NOT_EQUAL's corner cases: of JUMP_IF_EQUAL and JUMP_IF_NOT_EQUAL on one register in one state
exactly one is taken, the other falls through. -/
def Obligations.ConditionalJumpsAreComplementary : Prop :=
  ∀ (a : Byte) (i : RegIndex) (s t u : State), Names a i → exec (.jumpIfEqual a) s = .next t →
    exec (.jumpIfNotEqual a) s = .next u →
    (t.pc = (s.reg i).toNat ∧ u.pc = s.pc + 2) ∨ (t.pc = s.pc + 2 ∧ u.pc = (s.reg i).toNat)

/-- 20_memory.md, section 5, instruction-fetch coherence: the byte PUSH or CALL stores is what a fetch of its address gives in the
next state, and a fetch of any other address gives what it gave (D28, log 26). The byte is that of 43_stack.md, section 2, and
44_control_flow.md, section 2: x[a] read after the decrement, so PUSH r7 stores the decremented SP (D12, log 10), and CALL's
return address, where it fits a byte (D15, log 13); the address wraps modulo 256 (D14, log 12). -/
def Obligations.StoredBytesAreFetched : Prop :=
  ∀ (a : Byte) (i : RegIndex) (s t : State) (addr : Nat), Names a i →
    (exec (.push a) s = .next t →
        fetch Config.machine addr t =
          if addr = (s.reg 7 - 1).toNat then .ok (if i = 7 then s.reg 7 - 1 else s.reg i)
          else fetch Config.machine addr s) ∧
      (s.pc + 2 ≤ 255 → exec (.call a) s = .next t →
        fetch Config.machine addr t =
          if addr = (s.reg 7 - 1).toNat then .ok (wrapByte (s.pc + 2)) else fetch Config.machine addr s)

/-! ## Invariant, reset, memory form, interfaces -/

/-- 10_state.md, 20_memory.md and 60_exceptions.md: every step keeps the machine's invariant: canonical memory inside MEM_SIZE,
pc at most MEM_SIZE, at most one flag set, FR valid exactly when Faulted and then one the rules can write. The canonical form of
memory (log 24) and FR as `none` while it is invalid (log 9) are the model's choices. -/
def Obligations.StepKeepsInvariant : Prop :=
  ∀ s t : State, s.Inv → step s = .next t → t.Inv

/-- 70_reset_and_hazards.md, section 1: the state after reset meets the machine's invariant (its canonical form of memory, log
24, and FR as `none`, log 9, are the model's choices). -/
def Obligations.ResetMeetsInvariant : Prop := State.reset.Inv

/-- 10_state.md, section 9: what reset leaves. RS, pc and memory are the document's; x[0..6] = 0 (D4, log 1), SP = 0xF4 (D5,
log 2), the flags (D6, log 3) and OUT (D19, log 19) are the spec's decisions; FR invalid is `none` (log 9). -/
def Obligations.ResetValues : Prop :=
  State.reset.rs = .running ∧ State.reset.pc = 0 ∧ (∀ k : RegIndex, State.reset.reg k = if k = 7 then 0xF4 else 0) ∧
    State.reset.flags = ⟨false, false, false⟩ ∧ State.reset.fr = none ∧ State.reset.out = [] ∧
    ∀ addr, State.reset.mem.read addr = 0

/-- 70_reset_and_hazards.md, sections 1 and 2: an image that fits is placed from address 0, every later byte is 0, all else is as
after reset, and the invariant holds (with the model's form of memory, log 24, and of FR, log 9); a longer image is refused and no
run starts (D22, log 21). -/
def Obligations.BootLoadsTheImage : Prop :=
  ∀ image : List Byte,
    (image.length ≤ 256 →
        ∃ s, boot image = .ok s ∧ s = { State.reset with mem := s.mem } ∧
          (∀ (k : Nat) (h : k < image.length), s.mem.read k = image[k]) ∧
          (∀ k, image.length ≤ k → s.mem.read k = 0) ∧ s.Inv) ∧
      (256 < image.length → boot image = .error (.imageTooLong image.length))

/-- 20_memory.md, section 2, over the model's own form of memory (log 24): two canonical memories that read the same at every
address are the same data. -/
def Obligations.CanonicalMemoryIsDetermined : Prop :=
  ∀ (size : Nat) (m m' : Memory), m.wf size → m'.wf size → (∀ addr, m.read addr = m'.read addr) → m = m'

/-- 10_state.md, sections 5 and 7, and 60_exceptions.md, section 1: in every state of the invariant the status port gives RS's
code and, exactly when Faulted, the record held in FR, as the code of its cause, the faulting pc and its datum (D16, log 14);
and the host sees no state of a run in progress, the whole state after it (D22, D27, log 25). -/
def Obligations.StatusPortAndInspection : Prop :=
  (Cause.decodeFault.code = 1 ∧ Cause.unsupportedAluOperation.code = 2 ∧ Cause.registerIndexFault.code = 3 ∧
    Cause.memoryAddressFault.code = 4) ∧ ∀ s : State, s.Inv →
    (s.rs = .running → s.statusPort = (0, none) ∧ inspect s = none) ∧
      (s.rs = .halted → s.statusPort = (1, none) ∧ inspect s = some s) ∧
      (s.rs = .faulted → (∃ f : FaultRecord, s.fr = some f ∧ s.statusPort = (2, some (f.cause.code, s.pc, f.info))) ∧
        inspect s = some s)
end

