-- ==== Sys2Proof/Laws/State.lean ====
section
/-! SUPPORT. The small lemmas of State: one per field and update, so that no later proof unfolds a record update. -/

namespace Sys2Proof.Machine

section SetReg
variable (s : State) (i : RegIndex) (v : Byte)

@[simp] theorem setReg_pc : (s.setReg i v).pc = s.pc := rfl
@[simp] theorem setReg_flags : (s.setReg i v).flags = s.flags := rfl
@[simp] theorem setReg_rs : (s.setReg i v).rs = s.rs := rfl
@[simp] theorem setReg_fr : (s.setReg i v).fr = s.fr := rfl
@[simp] theorem setReg_mem : (s.setReg i v).mem = s.mem := rfl
@[simp] theorem setReg_out : (s.setReg i v).out = s.out := rfl

theorem reg_setReg (j : RegIndex) : (s.setReg i v).reg j = if i = j then v else s.reg j := by
  simp [State.reg, State.setReg, Vector.getElem_set, Fin.ext_iff]

@[simp] theorem reg_setReg_self : (s.setReg i v).reg i = v := by simp [reg_setReg]

theorem reg_setReg_of_ne (j : RegIndex) (h : j ≠ i) : (s.setReg i v).reg j = s.reg j := by
  simp [reg_setReg, Ne.symm h]

end SetReg

/-- Two register files that agree at every index are equal. -/
theorem regs_ext {s t : State} (h : ∀ k, s.reg k = t.reg k) : s.regs = t.regs :=
  Vector.ext fun k hk => h ⟨k, hk⟩

section StackPointer
variable (s : State)

@[simp] theorem decrementSp_pc : s.decrementSp.pc = s.pc := rfl
@[simp] theorem decrementSp_flags : s.decrementSp.flags = s.flags := rfl
@[simp] theorem decrementSp_rs : s.decrementSp.rs = s.rs := rfl
@[simp] theorem decrementSp_fr : s.decrementSp.fr = s.fr := rfl
@[simp] theorem decrementSp_mem : s.decrementSp.mem = s.mem := rfl
@[simp] theorem decrementSp_out : s.decrementSp.out = s.out := rfl
@[simp] theorem incrementSp_pc : s.incrementSp.pc = s.pc := rfl
@[simp] theorem incrementSp_flags : s.incrementSp.flags = s.flags := rfl
@[simp] theorem incrementSp_rs : s.incrementSp.rs = s.rs := rfl
@[simp] theorem incrementSp_fr : s.incrementSp.fr = s.fr := rfl
@[simp] theorem incrementSp_mem : s.incrementSp.mem = s.mem := rfl
@[simp] theorem incrementSp_out : s.incrementSp.out = s.out := rfl

theorem sp_eq_reg : s.sp = s.reg 7 := rfl

theorem reg_decrementSp (k : RegIndex) : s.decrementSp.reg k = if k = 7 then s.reg 7 - 1 else s.reg k := by
  simp only [State.decrementSp, reg_setReg, sp_eq_reg, spIndex, eq_comm]

theorem reg_incrementSp (k : RegIndex) : s.incrementSp.reg k = if k = 7 then s.reg 7 + 1 else s.reg k := by
  simp only [State.incrementSp, reg_setReg, sp_eq_reg, spIndex, eq_comm]

@[simp] theorem sp_decrementSp : s.decrementSp.sp = s.sp - 1 := by simp [sp_eq_reg, reg_decrementSp]

@[simp] theorem sp_incrementSp : s.incrementSp.sp = s.sp + 1 := by simp [sp_eq_reg, reg_incrementSp]

@[simp] theorem reg_decrementSp_seven : s.decrementSp.reg 7 = s.reg 7 - 1 := (reg_decrementSp s 7).trans (if_pos rfl)

@[simp] theorem reg_incrementSp_seven : s.incrementSp.reg 7 = s.reg 7 + 1 := (reg_incrementSp s 7).trans (if_pos rfl)

theorem reg_decrementSp_of_ne (k : RegIndex) (h : k ≠ 7) : s.decrementSp.reg k = s.reg k :=
  (reg_decrementSp s k).trans (if_neg h)

theorem reg_incrementSp_of_ne (k : RegIndex) (h : k ≠ 7) : s.incrementSp.reg k = s.reg k :=
  (reg_incrementSp s k).trans (if_neg h)

end StackPointer

section Emit
variable (s : State) (v : Byte)

@[simp] theorem emit_regs : (s.emit v).regs = s.regs := rfl
@[simp] theorem emit_reg (k : RegIndex) : (s.emit v).reg k = s.reg k := rfl
@[simp] theorem emit_pc : (s.emit v).pc = s.pc := rfl
@[simp] theorem emit_flags : (s.emit v).flags = s.flags := rfl
@[simp] theorem emit_rs : (s.emit v).rs = s.rs := rfl
@[simp] theorem emit_fr : (s.emit v).fr = s.fr := rfl
@[simp] theorem emit_mem : (s.emit v).mem = s.mem := rfl
@[simp] theorem emit_out : (s.emit v).out = s.out ++ [v] := rfl

end Emit

section ProgramCounter
variable (s : State) (v : Byte)

@[simp] theorem jumpTo_regs : (s.jumpTo v).regs = s.regs := rfl
@[simp] theorem jumpTo_reg (k : RegIndex) : (s.jumpTo v).reg k = s.reg k := rfl
@[simp] theorem jumpTo_pc : (s.jumpTo v).pc = v.toNat := rfl
@[simp] theorem jumpTo_flags : (s.jumpTo v).flags = s.flags := rfl
@[simp] theorem jumpTo_rs : (s.jumpTo v).rs = s.rs := rfl
@[simp] theorem jumpTo_fr : (s.jumpTo v).fr = s.fr := rfl
@[simp] theorem jumpTo_mem : (s.jumpTo v).mem = s.mem := rfl
@[simp] theorem jumpTo_out : (s.jumpTo v).out = s.out := rfl
@[simp] theorem advance_regs : (advance v s).regs = s.regs := rfl
@[simp] theorem advance_reg (k : RegIndex) : (advance v s).reg k = s.reg k := rfl
@[simp] theorem advance_pc : (advance v s).pc = s.pc + 1 + operandCount v := rfl
@[simp] theorem advance_flags : (advance v s).flags = s.flags := rfl
@[simp] theorem advance_rs : (advance v s).rs = s.rs := rfl
@[simp] theorem advance_fr : (advance v s).fr = s.fr := rfl
@[simp] theorem advance_mem : (advance v s).mem = s.mem := rfl
@[simp] theorem advance_out : (advance v s).out = s.out := rfl

end ProgramCounter

section TakeFault
variable (r : Raise) (s : State)

@[simp] theorem takeFault_regs : (takeFault r s).regs = s.regs := rfl
@[simp] theorem takeFault_reg (k : RegIndex) : (takeFault r s).reg k = s.reg k := rfl
@[simp] theorem takeFault_pc : (takeFault r s).pc = s.pc := rfl
@[simp] theorem takeFault_flags : (takeFault r s).flags = s.flags := rfl
@[simp] theorem takeFault_rs : (takeFault r s).rs = .faulted := rfl
@[simp] theorem takeFault_fr : (takeFault r s).fr = some ⟨r.cause, s.pc, r.info⟩ := rfl
@[simp] theorem takeFault_mem : (takeFault r s).mem = s.mem := rfl
@[simp] theorem takeFault_out : (takeFault r s).out = s.out := rfl

end TakeFault

end Sys2Proof.Machine
end

