-- ==== Sys2Proof/Laws/Memory.lean ====
section
/-! SUPPORT. Memory: a read after a write (20_memory.md R53), for every list; and that every memory operation keeps the
canonical form. -/

namespace Sys2Proof.Machine

@[simp] theorem read_nil (a : Nat) : Memory.read [] a = 0 := rfl

theorem read_insert (a b : Nat) (v : Byte) (m : Memory) :
    (m.insert a v).read b = if a = b then v else m.read b := by
  induction m with
  | nil => simp [Memory.insert, Memory.read]
  | cons e rest ih =>
    obtain ⟨k, w⟩ := e
    simp only [Memory.insert]
    split
    · simp [Memory.read]
    · split
      · subst_vars
        simp only [Memory.read]
        split <;> rfl
      · simp only [Memory.read, ih]
        split
        · subst_vars
          rw [if_neg (by assumption)]
        · rfl

theorem read_erase (a b : Nat) (m : Memory) : (m.erase a).read b = if a = b then 0 else m.read b := by
  induction m with
  | nil => simp [Memory.erase]
  | cons e rest ih =>
    obtain ⟨k, w⟩ := e
    simp only [Memory.erase, List.filter_cons] at ih ⊢
    by_cases hka : k = a
    · subst hka
      simp only [bne_self_eq_false, Bool.false_eq_true, if_false, ih, Memory.read]
      split <;> rfl
    · simp only [bne_iff_ne, ne_eq, hka, not_false_eq_true, if_true, Memory.read, ih]
      split
      · subst_vars
        rw [if_neg (Ne.symm hka)]
      · rfl

/-- A write changes exactly the byte addressed, and a read returns the last write (20_memory.md R53). -/
theorem read_write (m : Memory) (a b : Nat) (v : Byte) : (m.write a v).read b = if a = b then v else m.read b := by
  unfold Memory.write
  split
  · subst_vars
    exact read_erase a b m
  · exact read_insert a b v m

@[simp] theorem read_write_self (m : Memory) (a : Nat) (v : Byte) : (m.write a v).read a = v := by simp [read_write]

theorem read_write_of_ne (m : Memory) (a b : Nat) (v : Byte) (h : b ≠ a) : (m.write a v).read b = m.read b := by
  simp [read_write, Ne.symm h]

theorem wf_nil (size : Nat) : Memory.wf size [] := ⟨List.Pairwise.nil, by simp⟩

theorem mem_insert {a : Nat} {v : Byte} {m : Memory} {e : Host.Cell} (h : e ∈ m.insert a v) : e = (a, v) ∨ e ∈ m := by
  induction m with
  | nil => exact .inl (by simpa [Memory.insert] using h)
  | cons f rest ih =>
    obtain ⟨k, w⟩ := f
    simp only [Memory.insert] at h
    split at h
    · simpa using h
    · split at h
      · rcases List.mem_cons.mp h with h | h
        · exact .inl h
        · exact .inr (List.mem_cons_of_mem _ h)
      · rcases List.mem_cons.mp h with h | h
        · exact .inr (h ▸ List.mem_cons_self)
        · exact (ih h).imp id (List.mem_cons_of_mem _)

theorem pairwise_insert (a : Nat) (v : Byte) (m : Memory) (h : m.Pairwise fun x y => x.1 < y.1) :
    (m.insert a v).Pairwise fun x y => x.1 < y.1 := by
  induction m with
  | nil => simp [Memory.insert]
  | cons f rest ih =>
    obtain ⟨k, w⟩ := f
    obtain ⟨hk, hrest⟩ := List.pairwise_cons.mp h
    simp only [Memory.insert]
    split
    · refine List.pairwise_cons.mpr ⟨fun y hy => ?_, h⟩
      rcases List.mem_cons.mp hy with rfl | hy
      · assumption
      · have := hk y hy
        simp only at this ⊢
        omega
    · split
      · subst_vars
        exact List.pairwise_cons.mpr ⟨hk, hrest⟩
      · refine List.pairwise_cons.mpr ⟨fun y hy => ?_, ih hrest⟩
        rcases mem_insert hy with rfl | hy
        · simp only
          omega
        · exact hk y hy

theorem wf_insert (size a : Nat) (v : Byte) (m : Memory) (h : m.wf size) (ha : a < size) (hv : v ≠ 0) :
    (m.insert a v).wf size := by
  refine ⟨pairwise_insert a v m h.1, fun e he => ?_⟩
  rcases mem_insert he with rfl | he
  · exact ⟨hv, ha⟩
  · exact h.2 e he

theorem wf_erase (size a : Nat) (m : Memory) (h : m.wf size) : (m.erase a).wf size :=
  ⟨h.1.filter _, fun e he => h.2 e (List.mem_of_mem_filter he)⟩

/-- A write inside the address space keeps the canonical form. -/
theorem wf_write (size a : Nat) (v : Byte) (m : Memory) (h : m.wf size) (ha : a < size) : (m.write a v).wf size := by
  unfold Memory.write
  split
  · exact wf_erase size a m h
  · exact wf_insert size a v m h ha (by assumption)

theorem wf_writeBytes (size : Nat) (bs : List Byte) (m : Memory) (a : Nat) (h : m.wf size) :
    (m.writeBytes size a bs).wf size := by
  induction bs generalizing m a with
  | nil => exact h
  | cons b bs ih =>
    refine ih _ _ ?_
    split
    · exact wf_write size a b m h (by assumption)
    · exact h

/-- What `writeMem` can do: a write of the byte addressed inside memory, or a MemoryAddressFault. -/
theorem writeMem_ok {c : Config} {a : Nat} {v : Byte} {s t : State} (h : writeMem c a v s = .ok t) :
    a < c.memSize ∧ t = { s with mem := s.mem.write a v } := by
  unfold writeMem at h
  split at h
  · exact ⟨by assumption, (Except.ok.inj h).symm⟩
  · cases h

theorem writeMem_error {c : Config} {a : Nat} {v : Byte} {s : State} {r : Raise} (h : writeMem c a v s = .error r) :
    c.memSize ≤ a ∧ r = ⟨.memoryAddressFault, a⟩ := by
  unfold writeMem at h
  split at h
  · cases h
  · exact ⟨by omega, (Except.error.inj h).symm⟩

/-- The canonical form survives every memory operation of an instruction. -/
theorem writeMem_wf {c : Config} {a : Nat} {v : Byte} {s t : State} (h : writeMem c a v s = .ok t)
    (hs : s.mem.wf c.memSize) : t.mem.wf c.memSize := by
  obtain ⟨ha, rfl⟩ := writeMem_ok h
  exact wf_write _ _ _ _ hs ha

theorem reset_mem_wf : State.reset.mem.wf Config.machine.memSize := wf_nil _

end Sys2Proof.Machine
end

