-- ==== Sys2Proof/Laws/Operations.lean ====
section
/-! SUPPORT. One lemma for each shared operation that says what it can do; a proof cites it and does not unfold the
operation. -/

namespace Sys2Proof.Machine

/-! ## The machine's parameters -/

@[simp] theorem machine_memSize : Config.machine.memSize = 256 := rfl
@[simp] theorem machine_regIndexPolicy : Config.machine.regIndexPolicy = .fault := rfl
@[simp] theorem machine_opcode (m : Mnemonic) : Config.machine.opcode m = opcodeMap m := rfl

theorem machine_admitted : Config.machine.Admitted := by decide

theorem Mnemonic_mem_all (m : Mnemonic) : m ∈ Mnemonic.all := by cases m <;> decide

/-- `op[7:6]` of each opcode is its format's operand count (30_encoding.md R77). -/
theorem operandCount_opcodeMap (m : Mnemonic) : operandCount (opcodeMap m) = m.format.operandBytes := by
  cases m <;> decide

theorem decodeOpcode_opcodeMap (m : Mnemonic) : decodeOpcode Config.machine (opcodeMap m) = some m := by
  cases m <;> decide

/-- A known opcode byte is its mnemonic's entry in OPCODE_MAP, under any configuration. -/
theorem decodeOpcode_some {c : Config} {op : Byte} {m : Mnemonic} (h : decodeOpcode c op = some m) : c.opcode m = op := by
  simpa using List.find?_some h

theorem decodeOpcode_none {c : Config} {op : Byte} (h : decodeOpcode c op = none) (m : Mnemonic) : c.opcode m ≠ op := by
  have := List.find?_eq_none.mp h m (Mnemonic_mem_all m)
  simpa using this

/-! ## Ends of a step -/

@[simp] theorem commit_ok (s t : State) : commit s (.ok t) = t := rfl
@[simp] theorem commit_error (s : State) (r : Raise) : commit s (.error r) = takeFault r s := rfl

@[simp] theorem finishOrdinary_ok (c : Config) (m : Mnemonic) (s t : State) :
    finishOrdinary c m s (.ok t) = advance (c.opcode m) t := rfl
@[simp] theorem finishOrdinary_error (c : Config) (m : Mnemonic) (s : State) (r : Raise) :
    finishOrdinary c m s (.error r) = takeFault r s := rfl
@[simp] theorem finishControlFlow_ok (s t : State) : finishControlFlow s (.ok t) = t := rfl
@[simp] theorem finishControlFlow_error (s : State) (r : Raise) : finishControlFlow s (.error r) = takeFault r s := rfl

/-! ## Sequencing of rules -/

@[simp] theorem ok_bind {α β : Type} (x : α) (f : α → Except Raise β) : (Except.ok x >>= f) = f x := rfl
@[simp] theorem error_bind {α β : Type} (r : Raise) (f : α → Except Raise β) : (Except.error r >>= f) = .error r := rfl

/-- A sequence that succeeds: its first part does, and then the rest. -/
theorem bind_ok {α β : Type} {x : Except Raise α} {f : α → Except Raise β} {b : β} (h : (x >>= f) = .ok b) :
    ∃ a, x = .ok a ∧ f a = .ok b := by
  cases x with
  | ok a => exact ⟨a, rfl, h⟩
  | error r => cases h

/-- A sequence that raises: in its first part, or in the rest. -/
theorem bind_error {α β : Type} {x : Except Raise α} {f : α → Except Raise β} {r : Raise} (h : (x >>= f) = .error r) :
    x = .error r ∨ ∃ a, x = .ok a ∧ f a = .error r := by
  cases x with
  | ok a => exact .inr ⟨a, rfl, h⟩
  | error r' => exact .inl (congrArg Except.error (Except.error.inj h))

/-! ## RegIdx (40_engine.md R104) -/

theorem regIdx_of_lt (c : Config) {v : Byte} {i : RegIndex} (h : v.toNat = i.val) : regIdx c v = .ok i := by
  have hlt : v.toNat < 8 := h ▸ i.isLt
  simp only [regIdx, hlt, dite_true]
  exact congrArg Except.ok (Fin.ext h)

theorem regIdx_fault {c : Config} {v : Byte} (hc : c.regIndexPolicy = .fault) (h : 7 < v.toNat) :
    regIdx c v = .error ⟨.registerIndexFault, v.toNat⟩ := by
  simp [regIdx, hc, show ¬v.toNat < 8 by omega]

theorem regIdx_mask3 {c : Config} {v : Byte} (hc : c.regIndexPolicy = .mask3) : ∃ i, regIdx c v = .ok i ∧ i.val = v.toNat % 8 := by
  by_cases h : v.toNat < 8
  · exact ⟨⟨v.toNat, h⟩, by simp [regIdx, h], (Nat.mod_eq_of_lt h).symm⟩
  · exact ⟨lowThreeBits v, by simp [regIdx, h, hc], rfl⟩

/-- What the machine's RegIdx can answer. -/
theorem regIdx_machine (v : Byte) :
    (∃ i : RegIndex, v.toNat = i.val ∧ regIdx Config.machine v = .ok i) ∨
      (7 < v.toNat ∧ regIdx Config.machine v = .error ⟨.registerIndexFault, v.toNat⟩) := by
  by_cases h : v.toNat < 8
  · exact .inl ⟨⟨v.toNat, h⟩, rfl, regIdx_of_lt _ rfl⟩
  · exact .inr ⟨by omega, regIdx_fault rfl (by omega)⟩

/-! ## Memory accesses (20_memory.md R54) -/

theorem readMem_of_lt {c : Config} {a : Nat} {s : State} (h : a < c.memSize) : readMem c a s = .ok (s.mem.read a) := by
  simp [readMem, h]

theorem readMem_of_ge {c : Config} {a : Nat} {s : State} (h : c.memSize ≤ a) :
    readMem c a s = .error ⟨.memoryAddressFault, a⟩ := by
  simp [readMem, Nat.not_lt.mpr h]

theorem writeMem_of_lt {c : Config} {a : Nat} {v : Byte} {s : State} (h : a < c.memSize) :
    writeMem c a v s = .ok { s with mem := s.mem.write a v } := by
  simp [writeMem, h]

theorem writeMem_of_ge {c : Config} {a : Nat} {v : Byte} {s : State} (h : c.memSize ≤ a) :
    writeMem c a v s = .error ⟨.memoryAddressFault, a⟩ := by
  simp [writeMem, Nat.not_lt.mpr h]

/-- With 256 bytes a stack write never faults (60_exceptions.md R201). -/
theorem storeAtSp_machine (v : Byte) (s : State) :
    storeAtSp Config.machine v s = .ok { s with mem := s.mem.write s.sp.toNat v } :=
  writeMem_of_lt s.sp.isLt

/-- With 256 bytes a stack read never faults (60_exceptions.md R201). -/
theorem loadAtSp_machine (s : State) : loadAtSp Config.machine s = .ok (s.mem.read s.sp.toNat) :=
  readMem_of_lt s.sp.isLt

/-! ## Fetch and decode (40_engine.md R101 to R103) -/

theorem fetch_of_lt {c : Config} {a : Nat} {s : State} (h : a < c.memSize) : fetch c a s = .ok (s.mem.read a) :=
  readMem_of_lt h

theorem fetch_of_ge {c : Config} {a : Nat} {s : State} (h : c.memSize ≤ a) :
    fetch c a s = .error ⟨.memoryAddressFault, a⟩ :=
  readMem_of_ge h

theorem fetchInstr_known {c : Config} {s : State} {m : Mnemonic} (hpc : s.pc < c.memSize)
    (hm : decodeOpcode c (s.mem.read s.pc) = some m) :
    fetchInstr c s = fetchOperands c m (operandCount (s.mem.read s.pc)) s := by
  simp only [fetchInstr, fetch_of_lt hpc, ok_bind, hm]

theorem fetchInstr_unknown {c : Config} {s : State} (hpc : s.pc < c.memSize)
    (hm : decodeOpcode c (s.mem.read s.pc) = none) :
    fetchInstr c s = .error ⟨.decodeFault, (s.mem.read s.pc).toNat⟩ := by
  simp only [fetchInstr, fetch_of_lt hpc, ok_bind, hm]

theorem fetchInstr_past_end {c : Config} {s : State} (hpc : c.memSize ≤ s.pc) :
    fetchInstr c s = .error ⟨.memoryAddressFault, s.pc⟩ := by
  simp only [fetchInstr, fetch_of_ge hpc, error_bind]

theorem fetchOperand_absent (c : Config) (a : Nat) (s : State) : fetchOperand c false a s = .ok 0 := rfl

theorem fetchOperand_present (c : Config) (a : Nat) (s : State) : fetchOperand c true a s = fetch c a s := rfl

/-- A mnemonic has at most two operand bytes (30_encoding.md R73). -/
theorem operandBytes_le_two (m : Mnemonic) : m.format.operandBytes ≤ 2 := by cases m <;> decide

/-- An operand the format lacks does not matter to the instruction assembled. -/
theorem assemble_unused_both {m : Mnemonic} (h : m.format.operandBytes = 0) (a b a' b' : Byte) :
    assemble m a b = assemble m a' b' := by
  cases m <;> first | rfl | cases h

theorem assemble_unused_second {m : Mnemonic} (h : m.format.operandBytes ≤ 1) (a b b' : Byte) :
    assemble m a b = assemble m a b' := by
  cases m <;> first | rfl | (simp [Mnemonic.format, Format.operandBytes] at h)

/-- All the machine's operand fetch can do: every operand byte the format has is in memory, or byte number `k` of the
instruction is the first one past its end. -/
theorem fetchOperands_cases (m : Mnemonic) (s : State) (hpc : s.pc < 256) :
    (s.pc + m.format.operandBytes < 256 ∧
        fetchOperands Config.machine m m.format.operandBytes s =
          .ok (assemble m (s.mem.read (s.pc + 1)) (s.mem.read (s.pc + 2)))) ∨
      ∃ k, 1 ≤ k ∧ k ≤ m.format.operandBytes ∧ s.pc + k = 256 ∧
        fetchOperands Config.machine m m.format.operandBytes s = .error ⟨.memoryAddressFault, s.pc + k⟩ := by
  have hle := operandBytes_le_two m
  obtain h | h | h : m.format.operandBytes = 0 ∨ m.format.operandBytes = 1 ∨ m.format.operandBytes = 2 := by omega
  · refine .inl ⟨by omega, ?_⟩
    rw [h]
    exact congrArg Except.ok (assemble_unused_both h _ _ _ _)
  · rw [h]
    by_cases h1 : s.pc + 1 < 256
    · refine .inl ⟨h1, ?_⟩
      simp only [fetchOperands, fetchOperand, fetch_of_lt (c := Config.machine) h1, Nat.le_refl, decide_true, if_true,
        show decide (1 = 2) = false from rfl, Bool.false_eq_true, if_false, ok_bind]
      exact congrArg Except.ok (assemble_unused_second (by omega) _ _ _)
    · refine .inr ⟨1, Nat.le_refl 1, Nat.le_refl 1, by omega, ?_⟩
      simp only [fetchOperands, fetchOperand, fetch_of_ge (c := Config.machine) (Nat.not_lt.mp h1), Nat.le_refl,
        decide_true, if_true, error_bind]
  · rw [h]
    by_cases h1 : s.pc + 1 < 256
    · by_cases h2 : s.pc + 2 < 256
      · refine .inl ⟨h2, ?_⟩
        simp only [fetchOperands, fetchOperand, fetch_of_lt (c := Config.machine) h1, fetch_of_lt (c := Config.machine) h2,
          show decide (1 ≤ 2) = true from rfl, decide_true, if_true, ok_bind]
      · refine .inr ⟨2, by omega, Nat.le_refl 2, by omega, ?_⟩
        simp only [fetchOperands, fetchOperand, fetch_of_lt (c := Config.machine) h1,
          fetch_of_ge (c := Config.machine) (Nat.not_lt.mp h2), show decide (1 ≤ 2) = true from rfl, decide_true, if_true,
          ok_bind, error_bind]
    · refine .inr ⟨1, Nat.le_refl 1, by omega, by omega, ?_⟩
      simp only [fetchOperands, fetchOperand, fetch_of_ge (c := Config.machine) (Nat.not_lt.mp h1),
        show decide (1 ≤ 2) = true from rfl, if_true, error_bind]

/-- All the machine's instruction fetch can do (40_engine.md R101, R102, R103). -/
theorem fetchInstr_cases (s : State) :
    (256 ≤ s.pc ∧ fetchInstr Config.machine s = .error ⟨.memoryAddressFault, s.pc⟩) ∨
      (s.pc < 256 ∧ (∀ m, opcodeMap m ≠ s.mem.read s.pc) ∧
        fetchInstr Config.machine s = .error ⟨.decodeFault, (s.mem.read s.pc).toNat⟩) ∨
      ∃ m, s.pc < 256 ∧ opcodeMap m = s.mem.read s.pc ∧
        ((s.pc + m.format.operandBytes < 256 ∧
            fetchInstr Config.machine s = .ok (assemble m (s.mem.read (s.pc + 1)) (s.mem.read (s.pc + 2)))) ∨
          ∃ k, 1 ≤ k ∧ k ≤ m.format.operandBytes ∧ s.pc + k = 256 ∧
            fetchInstr Config.machine s = .error ⟨.memoryAddressFault, s.pc + k⟩) := by
  by_cases hpc : s.pc < 256
  · cases hd : decodeOpcode Config.machine (s.mem.read s.pc) with
    | none => exact .inr (.inl ⟨hpc, decodeOpcode_none hd, fetchInstr_unknown hpc hd⟩)
    | some m =>
      have ho : opcodeMap m = s.mem.read s.pc := decodeOpcode_some hd
      have hf := fetchInstr_known (c := Config.machine) hpc hd
      rw [← ho, operandCount_opcodeMap] at hf
      exact .inr (.inr ⟨m, hpc, ho, by rw [hf]; exact fetchOperands_cases m s hpc⟩)
  · exact .inl ⟨by omega, fetchInstr_past_end (Nat.not_lt.mp hpc)⟩

end Sys2Proof.Machine
end

