-- ==== Sys2Proof/Laws/Parametric.lean ====
section
/-! SUPPORT. The machine is the parametric engine at the spec's parameter values (00_scope.md R6); so `exec` always answers a
next state, and `step` does while RS = Running. -/

namespace Sys2Proof.Machine

theorem exec_eq_execWith (i : Instr) (s : State) : exec i s = .next (execWith Config.machine i s) := by
  cases i <;> rfl

theorem exec_next_iff (i : Instr) (s t : State) : exec i s = .next t ↔ t = execWith Config.machine i s := by
  rw [exec_eq_execWith]
  exact ⟨fun h => (Host.Outcome.next.inj h).symm, fun h => by rw [h]⟩

/-- A fault that an instruction's handler raises is taken and nothing else happens, whatever the class of the instruction. -/
theorem execWith_of_error {c : Config} {i : Instr} {s : State} {r : Raise} (h : ruleWith c i s = .error r) :
    execWith c i s = takeFault r s := by
  rw [execWith, h]
  cases i <;> rfl

/-- A handler that raises nothing leaves its state, with the general advance for an ordinary instruction alone. -/
theorem execWith_of_ok {c : Config} {i : Instr} {s t : State} (h : ruleWith c i s = .ok t) :
    execWith c i s = t ∨ execWith c i s = advance (c.opcode i.mnemonic) t := by
  rw [execWith, h]
  cases i <;> first | exact .inl rfl | exact .inr rfl

theorem step_next_iff (s t : State) : step s = .next t ↔ stepWith Config.machine s = some t := by
  cases hrs : s.rs <;> cases hf : fetchInstr Config.machine s <;>
    simp [step, stepWith, hrs, hf, exec_eq_execWith]

end Sys2Proof.Machine
end

