-- ==== Sys2Proof/Laws/PerInstr.lean ====
section
/-! SUPPORT. Families of statements made of each instruction as syntax, with one lemma per constructor. -/

namespace Sys2Proof.Laws.EncodedLength

/-- The encoding has the length a decoder tells from the opcode byte alone, `1 + op[7:6]`, and the operands its format has
(30_encoding.md R72, R73, R80). -/
def Statement (i : Instr) : Prop :=
  (encode i).length = 1 + operandCount (opcodeMap i.mnemonic) ∧ i.operands.length = i.mnemonic.format.operandBytes

/-- The operand list decides the length, since each opcode's bits 7:6 are its format's operand count. -/
theorem of_operands {i : Instr} (h : i.operands.length = i.mnemonic.format.operandBytes) : Statement i := by
  refine ⟨?_, h⟩
  rw [Machine.operandCount_opcodeMap, ← h]
  exact Nat.add_comm _ 1

theorem halt : Statement .halt := of_operands rfl
theorem loadImmediate (a imm : Byte) : Statement (.loadImmediate a imm) := of_operands rfl
theorem printRegister (a : Byte) : Statement (.printRegister a) := of_operands rfl
theorem add (a b : Byte) : Statement (.add a b) := of_operands rfl
theorem multiply (a b : Byte) : Statement (.multiply a b) := of_operands rfl
theorem compare (a b : Byte) : Statement (.compare a b) := of_operands rfl
theorem push (a : Byte) : Statement (.push a) := of_operands rfl
theorem pop (a : Byte) : Statement (.pop a) := of_operands rfl
theorem call (a : Byte) : Statement (.call a) := of_operands rfl
theorem ret : Statement .ret := of_operands rfl
theorem jump (a : Byte) : Statement (.jump a) := of_operands rfl
theorem jumpIfEqual (a : Byte) : Statement (.jumpIfEqual a) := of_operands rfl
theorem jumpIfNotEqual (a : Byte) : Statement (.jumpIfNotEqual a) := of_operands rfl

end Sys2Proof.Laws.EncodedLength
end

