-- ==== Sys2Proof/Laws/Rules.lean ====
section
/-! SUPPORT. What each instruction's rule can answer on the machine: its writes, when every register operand names a register,
or the fault it raises. A proof about `exec` cites these and does not unfold a rule. -/

namespace Sys2Proof.Machine

/-- A rule over one register operand: it goes on with the register the operand names, or raises RegisterIndexFault. -/
theorem withIndex_cases (a : Byte) (f : RegIndex → Attempt) :
    (∃ i : RegIndex, a.toNat = i.val ∧ (regIdx Config.machine a >>= f) = f i) ∨
      (7 < a.toNat ∧ (regIdx Config.machine a >>= f) = .error ⟨.registerIndexFault, a.toNat⟩) := by
  rcases regIdx_machine a with ⟨i, hi, e⟩ | ⟨ha, e⟩
  · exact .inl ⟨i, hi, by rw [e, ok_bind]⟩
  · exact .inr ⟨ha, by rw [e, error_bind]⟩

/-- A rule over two register operands: both name registers, or the first that does not is raised, a before b. -/
theorem withIndexes_cases (a b : Byte) (f : RegIndex → RegIndex → Attempt) :
    (∃ i j : RegIndex, a.toNat = i.val ∧ b.toNat = j.val ∧
        (regIdx Config.machine a >>= fun i => regIdx Config.machine b >>= f i) = f i j) ∨
      (7 < a.toNat ∧ (regIdx Config.machine a >>= fun i => regIdx Config.machine b >>= f i) =
        .error ⟨.registerIndexFault, a.toNat⟩) ∨
      (a.toNat ≤ 7 ∧ 7 < b.toNat ∧ (regIdx Config.machine a >>= fun i => regIdx Config.machine b >>= f i) =
        .error ⟨.registerIndexFault, b.toNat⟩) := by
  rcases withIndex_cases a fun i => regIdx Config.machine b >>= f i with ⟨i, hi, e⟩ | h
  · rcases withIndex_cases b (f i) with ⟨j, hj, e'⟩ | ⟨hb, e'⟩
    · exact .inl ⟨i, j, hi, hj, e.trans e'⟩
    · exact .inr (.inr ⟨by omega, hb, e.trans e'⟩)
  · exact .inr (.inl h)

theorem loadImmediateRule_cases (a imm : Byte) (s : State) :
    (∃ i : RegIndex, a.toNat = i.val ∧ loadImmediateRule Config.machine a imm s = .ok (s.setReg i imm)) ∨
      (7 < a.toNat ∧ loadImmediateRule Config.machine a imm s = .error ⟨.registerIndexFault, a.toNat⟩) :=
  withIndex_cases a fun i => .ok (s.setReg i (literal imm))

theorem printRegisterRule_cases (a : Byte) (s : State) :
    (∃ i : RegIndex, a.toNat = i.val ∧ printRegisterRule Config.machine a s = .ok (s.emit (s.reg i))) ∨
      (7 < a.toNat ∧ printRegisterRule Config.machine a s = .error ⟨.registerIndexFault, a.toNat⟩) :=
  withIndex_cases a fun i => .ok (s.emit (s.reg i))

theorem addRule_cases (a b : Byte) (s : State) :
    (∃ i j : RegIndex, a.toNat = i.val ∧ b.toNat = j.val ∧
        addRule Config.machine a b s = .ok (s.setReg i (wrapByte ((s.reg i).toNat + (s.reg j).toNat)))) ∨
      (7 < a.toNat ∧ addRule Config.machine a b s = .error ⟨.registerIndexFault, a.toNat⟩) ∨
      (a.toNat ≤ 7 ∧ 7 < b.toNat ∧ addRule Config.machine a b s = .error ⟨.registerIndexFault, b.toNat⟩) :=
  withIndexes_cases a b fun i j => .ok (s.setReg i (wrapByte ((s.reg i).toNat + (s.reg j).toNat)))

theorem multiplyRule_cases (a b : Byte) (s : State) :
    (∃ i j : RegIndex, a.toNat = i.val ∧ b.toNat = j.val ∧
        multiplyRule Config.machine a b s = .ok (s.setReg i (wrapByte ((s.reg i).toNat * (s.reg j).toNat)))) ∨
      (7 < a.toNat ∧ multiplyRule Config.machine a b s = .error ⟨.registerIndexFault, a.toNat⟩) ∨
      (a.toNat ≤ 7 ∧ 7 < b.toNat ∧ multiplyRule Config.machine a b s = .error ⟨.registerIndexFault, b.toNat⟩) :=
  withIndexes_cases a b fun i j => .ok (s.setReg i (wrapByte ((s.reg i).toNat * (s.reg j).toNat)))

theorem compareRule_cases (a b : Byte) (s : State) :
    (∃ i j : RegIndex, a.toNat = i.val ∧ b.toNat = j.val ∧
        compareRule Config.machine a b s = .ok { s with flags := compareFlags (s.reg i) (s.reg j) }) ∨
      (7 < a.toNat ∧ compareRule Config.machine a b s = .error ⟨.registerIndexFault, a.toNat⟩) ∨
      (a.toNat ≤ 7 ∧ 7 < b.toNat ∧ compareRule Config.machine a b s = .error ⟨.registerIndexFault, b.toNat⟩) :=
  withIndexes_cases a b fun i j => .ok { s with flags := compareFlags (s.reg i) (s.reg j) }

theorem pushRule_cases (a : Byte) (s : State) :
    (∃ i : RegIndex, a.toNat = i.val ∧
        pushRule Config.machine a s =
          .ok { s.decrementSp with mem := s.mem.write s.decrementSp.sp.toNat (s.decrementSp.reg i) }) ∨
      (7 < a.toNat ∧ pushRule Config.machine a s = .error ⟨.registerIndexFault, a.toNat⟩) := by
  rcases withIndex_cases a fun i => storeAtSp Config.machine (s.decrementSp.reg i) s.decrementSp with ⟨i, hi, e⟩ | h
  · exact .inl ⟨i, hi, e.trans (storeAtSp_machine _ _)⟩
  · exact .inr h

theorem popRule_cases (a : Byte) (s : State) :
    (∃ i : RegIndex, a.toNat = i.val ∧
        popRule Config.machine a s = .ok (s.setReg i (s.mem.read s.sp.toNat)).incrementSp) ∨
      (7 < a.toNat ∧ popRule Config.machine a s = .error ⟨.registerIndexFault, a.toNat⟩) := by
  rcases withIndex_cases a fun i => loadAtSp Config.machine s >>= fun v => .ok (s.setReg i v).incrementSp with
    ⟨i, hi, e⟩ | h
  · exact .inl ⟨i, hi, e.trans (by rw [loadAtSp_machine, ok_bind])⟩
  · exact .inr h

/-- The state a CALL of register `i` leaves: the return address pushed, pc at x[i] as it is after the push. -/
def callTarget (i : RegIndex) (s : State) : State :=
  ({ s.decrementSp with mem := s.mem.write s.decrementSp.sp.toNat (wrapByte (s.pc + 2)) } : State).jumpTo (s.decrementSp.reg i)

theorem callRule_cases (a : Byte) (s : State) :
    (∃ i : RegIndex, a.toNat = i.val ∧ s.pc + 2 ≤ 255 ∧ callRule Config.machine a s = .ok (callTarget i s)) ∨
      (7 < a.toNat ∧ callRule Config.machine a s = .error ⟨.registerIndexFault, a.toNat⟩) ∨
      (a.toNat ≤ 7 ∧ 255 < s.pc + 2 ∧ callRule Config.machine a s = .error ⟨.memoryAddressFault, s.pc + 2⟩) := by
  rcases regIdx_machine a with ⟨i, hi, e⟩ | ⟨ha, e⟩
  · by_cases hp : s.pc + 2 > 255
    · exact .inr (.inr ⟨by omega, hp, by simp only [callRule, e, ok_bind, hp, if_true]⟩)
    · refine .inl ⟨i, hi, by omega, ?_⟩
      simp only [callRule, e, ok_bind, hp, if_false, storeAtSp_machine]
      rfl
  · exact .inr (.inl ⟨ha, by simp only [callRule, e, error_bind]⟩)

theorem retRule_machine (s : State) : retRule Config.machine s = .ok (s.incrementSp.jumpTo (s.mem.read s.sp.toNat)) := by
  simp only [retRule, loadAtSp_machine, ok_bind]

theorem jumpRule_cases (a : Byte) (s : State) :
    (∃ i : RegIndex, a.toNat = i.val ∧ jumpRule Config.machine a s = .ok (s.jumpTo (s.reg i))) ∨
      (7 < a.toNat ∧ jumpRule Config.machine a s = .error ⟨.registerIndexFault, a.toNat⟩) :=
  withIndex_cases a fun i => .ok (s.jumpTo (s.reg i))

theorem jumpIfRule_cases (taken : Bool) (a : Byte) (s : State) :
    (∃ i : RegIndex, a.toNat = i.val ∧
        jumpIfRule Config.machine taken a s = .ok (if taken then s.jumpTo (s.reg i) else { s with pc := s.pc + 2 })) ∨
      (7 < a.toNat ∧ jumpIfRule Config.machine taken a s = .error ⟨.registerIndexFault, a.toNat⟩) :=
  withIndex_cases a fun i => .ok (if taken then s.jumpTo (s.reg i) else { s with pc := s.pc + 2 })

end Sys2Proof.Machine
end

