-- ==== Sys2Proof/Machine/Assembly.lean ====
section
/-! DEFINITION. The assembly syntax (30_encoding.md R76, R81): the mnemonics, their short forms, and an instruction written out.
The document defines no assembler (91_not_in_source.md N16), so nothing here parses a program. -/

namespace Sys2Proof

/-- The mnemonic of the dispatcher table (30_encoding.md R76). -/
def Mnemonic.name : Mnemonic → String
  | .halt => "HALT"
  | .loadImmediate => "LOAD_IMMEDIATE"
  | .printRegister => "PRINT_REGISTER"
  | .add => "ADD"
  | .multiply => "MULTIPLY"
  | .compare => "COMPARE"
  | .push => "PUSH"
  | .pop => "POP"
  | .call => "CALL"
  | .ret => "RETURN"
  | .jump => "JUMP"
  | .jumpIfEqual => "JUMP_IF_EQUAL"
  | .jumpIfNotEqual => "JUMP_IF_NOT_EQUAL"

/-- The short form (30_encoding.md R76, from general knowledge). -/
def Mnemonic.shortName : Mnemonic → String
  | .halt => "HLT"
  | .loadImmediate => "LDI"
  | .printRegister => "PRN"
  | .add => "ADD"
  | .multiply => "MUL"
  | .compare => "CMP"
  | .push => "PUSH"
  | .pop => "POP"
  | .call => "CALL"
  | .ret => "RET"
  | .jump => "JMP"
  | .jumpIfEqual => "JEQ"
  | .jumpIfNotEqual => "JNE"

/-- The mnemonic a name stands for: the long name or its synonym (30_encoding.md R81). -/
def Mnemonic.ofName (w : String) : Option Mnemonic := Mnemonic.all.find? fun m => m.name == w || m.shortName == w

/-- A register operand as it is written: `r` and the index in decimal. -/
def registerName (a : Byte) : String := "r" ++ toString a.toNat

/-- The operands as they are written: registers as `r0` to `r7`, a literal in decimal, a comma between them. -/
def Instr.operandText : Instr → String
  | .halt => ""
  | .loadImmediate a imm => registerName a ++ ", " ++ toString imm.toNat
  | .printRegister a => registerName a
  | .add a b => registerName a ++ ", " ++ registerName b
  | .multiply a b => registerName a ++ ", " ++ registerName b
  | .compare a b => registerName a ++ ", " ++ registerName b
  | .push a => registerName a
  | .pop a => registerName a
  | .call a => registerName a
  | .ret => ""
  | .jump a => registerName a
  | .jumpIfEqual a => registerName a
  | .jumpIfNotEqual a => registerName a

/-- One instruction as one line of assembly (30_encoding.md R81). -/
def Instr.toAssembly (i : Instr) : String :=
  if i.operands.isEmpty then i.mnemonic.name else i.mnemonic.name ++ " " ++ i.operandText

end Sys2Proof
end

