-- ==== Sys2Proof/Tests/Slice0.lean ====
section
/-! SUPPORT. Tests, one step each, with expected results taken from the spec: the encodings of 30_encoding.md R76 and the
vectors of 95_test_vectors.md; and, for each statement with hypotheses, a witness that meets them. -/

namespace Sys2Proof.Tests

open Sys2Proof.Machine

/-- The machine after reset, with bytes placed at an address and pc there. -/
def placed (pc : Nat) (bytes : List Byte) : State :=
  { State.reset with pc := pc, mem := Memory.writeBytes 256 [] pc bytes }

/-- The next state of a step; the same state where there is none. -/
def stepped (s : State) : State :=
  match step s with
  | .next t => t
  | _ => s

/-- The next state of an instruction; the same state where there is none. -/
def after (i : Instr) (s : State) : State :=
  match exec i s with
  | .next t => t
  | _ => s

/-- FR as the codes of 60_exceptions.md R200. -/
def fr (s : State) : Option (Nat × Nat × Nat) := s.fr.map FaultRecord.codes

/-! ## WellFormed: one ill-formed term for each register operand it checks -/

theorem test_wellFormed_accepts :
    (Instr.add 7 0).WellFormed ∧ (Instr.loadImmediate 0 255).WellFormed ∧ Instr.halt.WellFormed ∧ Instr.ret.WellFormed := by
  decide

theorem test_wellFormed_refuses_first_operand :
    ¬(Instr.loadImmediate 8 0).WellFormed ∧ ¬(Instr.printRegister 8).WellFormed ∧ ¬(Instr.add 8 0).WellFormed ∧
      ¬(Instr.multiply 8 0).WellFormed ∧ ¬(Instr.compare 255 0).WellFormed ∧ ¬(Instr.push 8).WellFormed ∧
      ¬(Instr.pop 8).WellFormed ∧ ¬(Instr.call 8).WellFormed ∧ ¬(Instr.jump 8).WellFormed ∧
      ¬(Instr.jumpIfEqual 9).WellFormed ∧ ¬(Instr.jumpIfNotEqual 8).WellFormed := by
  decide

theorem test_wellFormed_refuses_second_operand :
    ¬(Instr.add 0 255).WellFormed ∧ ¬(Instr.multiply 0 8).WellFormed ∧ ¬(Instr.compare 7 8).WellFormed := by
  decide

/-! ## Decoding: each instruction's bytes written out from 30_encoding.md R73, R76 -/

theorem test_decode_halt : decode [0b00000001] = .ok (.halt, []) := rfl
theorem test_decode_loadImmediate : decode [0b10000010, 3, 255, 1] = .ok (.loadImmediate 3 255, [1]) := rfl
theorem test_decode_printRegister : decode [0b01000111, 5] = .ok (.printRegister 5, []) := rfl
theorem test_decode_add : decode [0b10100000, 0, 1] = .ok (.add 0 1, []) := rfl
theorem test_decode_multiply : decode [0b10100010, 2, 7] = .ok (.multiply 2 7, []) := rfl
theorem test_decode_compare : decode [0b10100111, 7, 6] = .ok (.compare 7 6, []) := rfl
theorem test_decode_push : decode [0b01000101, 7] = .ok (.push 7, []) := rfl
theorem test_decode_pop : decode [0b01000110, 1] = .ok (.pop 1, []) := rfl
theorem test_decode_call : decode [0b01010000, 4] = .ok (.call 4, []) := rfl
theorem test_decode_ret : decode [0b00010001, 9] = .ok (.ret, [9]) := rfl
theorem test_decode_jump : decode [0b01010100, 2] = .ok (.jump 2, []) := rfl
theorem test_decode_jumpIfEqual : decode [0b01010101, 255] = .ok (.jumpIfEqual 255, []) := rfl
theorem test_decode_jumpIfNotEqual : decode [0b01010110, 3] = .ok (.jumpIfNotEqual 3, []) := rfl
theorem test_decode_refuses :
    decode [] = .error .noOpcode ∧ decode [0x00] = .error (.unknownOpcode 0) ∧
      decode [0xC0, 0, 0] = .error (.unknownOpcode 0xC0) ∧ decode [0xA8, 0, 0] = .error (.unknownOpcode 0xA8) ∧
      decode [0x47] = .error (.missingOperand 1) ∧ decode [0xA0, 0] = .error (.missingOperand 2) := by
  exact ⟨rfl, rfl, rfl, rfl, rfl, rfl⟩

/-- 30_encoding.md R78, R79: of the 256 byte values these 13 are known. -/
theorem test_known_opcodes (op : Byte) :
    (decodeOpcode Config.machine op).isSome =
      decide (op ∈ ([0x01, 0x82, 0x47, 0xA0, 0xA2, 0xA7, 0x45, 0x46, 0x50, 0x11, 0x54, 0x55, 0x56] : List Byte)) := by
  revert op
  decide

/-- spec/opcode_table.json: bit 0 is the least significant bit of the first byte. -/
theorem test_decodeTableWord :
    decodeTableWord 8 0x01 = some .halt ∧ decodeTableWord 8 0x82 = some (.loadImmediate 0 0) ∧
      decodeTableWord 24 0x0201A0 = some (.add 1 2) ∧ decodeTableWord 16 0xFF0756 = some (.jumpIfNotEqual 7) ∧
      decodeTableWord 8 0x01A8 = none := by
  decide

theorem test_withFetchWord_runs : (stepped (State.reset.withFetchWord 24 0x2A0382)).reg 3 = 42 := by decide

/-! ## The step (95_test_vectors.md, engine and decode) -/

/-- W8: an image of one unknown byte. -/
theorem test_unknown_opcode_faults : fr (stepped (placed 0 [0xFF])) = some (1, 0, 0xFF) ∧ (stepped (placed 0 [0xFF])).pc = 0 := by
  decide
theorem test_bit5_opcode_is_decode_fault : fr (stepped (placed 4 [0xA8])) = some (1, 4, 0xA8) := by decide
theorem test_fetch_at_256_faults : fr (stepped (placed 256 [])) = some (4, 256, 256) := by decide
/-- The first step from reset with no image fetches a 0 byte (30_encoding.md R79). -/
theorem test_first_step_from_reset : fr (stepped State.reset) = some (1, 0, 0) := by decide
theorem test_no_step_after_halt : (stepped (placed 0 [0x01])).rs = .halted ∧ stepped (stepped (placed 0 [0x01])) = stepped (placed 0 [0x01]) := by
  decide
/-- R31 and R34: the status port after a fault. -/
theorem test_status_port : (stepped (placed 0 [0xFF])).statusPort = (2, some (1, 0, 0xFF)) := by decide
/-- 70_reset_and_hazards.md R230: the image from address 0. -/
theorem test_boot :
    (match boot [0x82, 0, 5] with
      | .ok s => s.mem.read 0 == 0x82 && s.mem.read 2 == 5 && s.mem.read 3 == 0
      | .error _ => false) = true := by
  decide
/-- 70_reset_and_hazards.md R233: an image longer than memory is refused. -/
theorem test_boot_too_long (image : List Byte) (h : image.length = 257) : boot image = .error (.imageTooLong 257) := by
  simp [boot, bootWith, h]

/-! ## Each instruction (95_test_vectors.md) -/

theorem test_halt_at_last_address : (stepped (placed 255 [0x01])).rs = .halted ∧ (stepped (placed 255 [0x01])).pc = 255 := by decide
theorem test_loadImmediate_sp : (stepped (placed 0 [0x82, 7, 0x10])).sp = 0x10 ∧ (stepped (placed 0 [0x82, 7, 0x10])).pc = 3 := by
  decide
theorem test_loadImmediate_at_253 : (stepped (placed 253 [0x82, 1, 5])).reg 1 = 5 ∧ (stepped (placed 253 [0x82, 1, 5])).pc = 256 := by
  decide
theorem test_printRegister_sp : (stepped (placed 0 [0x47, 7])).out = [244] := by decide
theorem test_printRegister_at_255 : fr (stepped (placed 255 [0x47])) = some (4, 255, 256) ∧ (stepped (placed 255 [0x47])).out = [] := by
  decide
theorem test_add_wraps : (after (.add 0 1) ((State.reset.setReg 0 255).setReg 1 1)).reg 0 = 0 := by decide
theorem test_add_second_index_faults : fr (stepped (placed 0 [0xA0, 0, 0xFF])) = some (3, 0, 0xFF) := by decide
theorem test_multiply_high_byte_discarded : (after (.multiply 0 1) ((State.reset.setReg 0 200).setReg 1 2)).reg 0 = 144 := by decide
theorem test_multiply_squares : (after (.multiply 0 0) (State.reset.setReg 0 255)).reg 0 = 1 := by decide
theorem test_compare_unsigned :
    (after (.compare 0 1) ((State.reset.setReg 0 0x80).setReg 1 1)).flags = ⟨false, false, true⟩ := by decide
/-- After COMPARE gives E, an ADD leaves the flags. -/
theorem test_compare_flags_persist : (after (.add 0 1) (after (.compare 2 3) State.reset)).flags = ⟨true, false, false⟩ := by
  decide
theorem test_push_sp : (after (.push 7) State.reset).sp = 0xF3 ∧ (after (.push 7) State.reset).mem.read 0xF3 = 0xF3 := by decide
theorem test_push_wraps :
    (after (.push 1) ((State.reset.setReg 7 0).setReg 1 5)).sp = 0xFF ∧
      (after (.push 1) ((State.reset.setReg 7 0).setReg 1 5)).mem.read 0xFF = 5 := by decide
theorem test_pop_sp : (after (.pop 7) { State.reset.setReg 7 0xF3 with mem := [(0xF3, 0x20)] }).sp = 0x21 := by decide
theorem test_pop_wraps :
    (after (.pop 2) { State.reset.setReg 7 0xFF with mem := [(0xFF, 3)] }).reg 2 = 3 ∧
      (after (.pop 2) { State.reset.setReg 7 0xFF with mem := [(0xFF, 3)] }).sp = 0 := by decide
theorem test_call :
    (after (.call 1) { State.reset.setReg 1 0x20 with pc := 10 }).pc = 0x20 ∧
      (after (.call 1) { State.reset.setReg 1 0x20 with pc := 10 }).mem.read 0xF3 = 12 ∧
      (after (.call 7) State.reset).pc = 0xF3 := by decide
theorem test_call_at_254 : fr (stepped (placed 254 [0x50, 0])) = some (4, 254, 256) ∧ (stepped (placed 254 [0x50, 0])).sp = 0xF4 := by
  decide
theorem test_ret_at_last_address :
    (stepped { (placed 255 [0x11]).setReg 7 0xF3 with mem := [(0xF3, 9), (255, 0x11)] }).pc = 9 := by decide
theorem test_ret_on_empty_stack : (stepped (placed 0 [0x11])).pc = 0 ∧ (stepped (placed 0 [0x11])).sp = 0xF5 := by decide
theorem test_jump : (after (.jump 2) (State.reset.setReg 2 7)).pc = 7 := by decide
theorem test_jump_first_index_faults : fr (stepped (placed 0 [0x54, 8])) = some (3, 0, 8) := by decide
/-- 95_test_vectors.md: pc = 20, x[3] = 40, F.E true and then false. -/
theorem test_jumpIfEqual :
    (after (.jumpIfEqual 3) { State.reset.setReg 3 40 with pc := 20, flags := ⟨true, false, false⟩ }).pc = 40 ∧
      (after (.jumpIfEqual 3) { State.reset.setReg 3 40 with pc := 20 }).pc = 22 := by decide
theorem test_jumpIfEqual_untaken_index_faults : fr (stepped (placed 0 [0x55, 9])) = some (3, 0, 9) := by decide
theorem test_jumpIfNotEqual :
    (after (.jumpIfNotEqual 3) { State.reset.setReg 3 40 with pc := 20, flags := ⟨true, false, false⟩ }).pc = 22 ∧
      (after (.jumpIfNotEqual 3) { State.reset.setReg 3 40 with pc := 20 }).pc = 40 := by decide
theorem test_alu_unsupported_select :
    fr (commit State.reset (aluRequest Config.machine (.unsupported 0xA8) 0 0 State.reset)) = some (2, 0, 0xA8) := by decide

/-! ## Other configurations (00_scope.md R6) -/

/-- 95_test_vectors.md: `82 08 01` under mask3: x[0] = 1 (8 masked to 0), pc = 3. -/
theorem test_mask3 :
    (match stepWith { Config.machine with regIndexPolicy := .mask3 } (placed 0 [0x82, 8, 1]) with
      | some t => t.reg 0 == 1 && t.pc == 3
      | none => false) = true := by decide
/-- 43_stack.md R161: with MEM_SIZE < 256, PUSH at a new SP beyond it faults and SP is not decremented. -/
theorem test_small_memory_push :
    (match stepWith { Config.machine with memSize := 128 } (placed 0 [0x45, 0]) with
      | some t => fr t == some (4, 0, 0xF3) && t.sp == 0xF4
      | none => false) = true := by decide

/-! ## Assembly (30_encoding.md R81) -/

theorem test_assembly :
    (Instr.loadImmediate 0 5).toAssembly = "LOAD_IMMEDIATE r0, 5" ∧ (Instr.add 0 1).toAssembly = "ADD r0, r1" ∧
      Instr.ret.toAssembly = "RETURN" ∧ Mnemonic.ofName "JNE" = some .jumpIfNotEqual := by
  decide

/-! ## Witnesses: states and operands that meet a statement's hypotheses, at the ends of their ranges -/

theorem witness_DecodeInvertsEncode : Config.machine.Admitted ∧ { Config.machine with memSize := 1 }.Admitted := by decide
theorem witness_DecodedBytesAreTheEncoding : Config.machine.Admitted ∧ decodeWith Config.machine [0x46, 7, 0] = .ok (.pop 7, [0]) :=
  ⟨machine_admitted, rfl⟩
theorem witness_OperandCountIsTheTopTwoBits : 0xC0 ≤ (0xC0 : Byte).toNat ∧ 0xC0 ≤ (0xFF : Byte).toNat := by decide
theorem witness_StepRunsDecodedInstruction :
    (placed 253 [0xA0, 0, 9]).rs = .running ∧ decode ((placed 253 [0xA0, 0, 9]).bytesAtPc Config.machine) = .ok (.add 0 9, []) ∧
      decode ((placed 255 [0x01]).bytesAtPc Config.machine) = .ok (.halt, []) := ⟨rfl, rfl, rfl⟩
theorem witness_OpcodeFetchPastEndFaults : (placed 256 []).rs = .running ∧ 256 ≤ (placed 256 []).pc := by decide
theorem witness_UnknownOpcodeFaults :
    (placed 255 [0xFF]).rs = .running ∧ (placed 255 [0xFF]).pc < 256 ∧ (placed 255 [0xFF]).mem.read 255 = 0xFF ∧
      ∀ m : Mnemonic, opcodeMap m ≠ 0xFF := ⟨rfl, by decide, by decide, fun m => by cases m <;> decide⟩
theorem witness_OperandFetchPastEndFaults_first :
    (placed 255 [0x47]).rs = .running ∧ (placed 255 [0x47]).mem.read (placed 255 [0x47]).pc = opcodeMap .printRegister ∧
      1 ≤ Mnemonic.printRegister.format.operandBytes ∧ (placed 255 [0x47]).pc + 1 = 256 := by decide
theorem witness_OperandFetchPastEndFaults_second :
    (placed 254 [0xA0, 0]).rs = .running ∧ (placed 254 [0xA0, 0]).mem.read (placed 254 [0xA0, 0]).pc = opcodeMap .add ∧
      2 ≤ Mnemonic.add.format.operandBytes ∧ (placed 254 [0xA0, 0]).pc + 2 = 256 := by decide
theorem witness_TerminalStatesAreLeftByResetOnly :
    (stepped (placed 0 [0x01])).rs = .halted ∧ (stepped (placed 0 [])).rs = .faulted ∧
      ∃ t, hostAct (.loadAndReset [0x01]) (stepped (placed 0 [])) = .ok t := ⟨by decide, by decide, _, rfl⟩
theorem witness_running : State.reset.rs = .running := rfl
theorem witness_StepPcSuccessors :
    (∃ t, step (placed 255 [0x11]) = .next t) ∧ (stepped (placed 255 [0x11])).rs = .running ∧
      (stepped (placed 255 [0x01])).rs ≠ .running := ⟨⟨_, rfl⟩, by decide, by decide⟩
theorem witness_FirstFaultDecidesTheStep :
    (placed 256 []).firstFault = some (.memoryAddressFault, 256) ∧ (placed 0 []).firstFault = some (.decodeFault, 0) ∧
      (placed 255 [0xA0]).firstFault = some (.memoryAddressFault, 256) ∧
      (placed 254 [0xA0, 9]).firstFault = some (.memoryAddressFault, 256) ∧
      (placed 0 [0xA0, 8, 9]).firstFault = some (.registerIndexFault, 8) ∧
      (placed 0 [0xA0, 7, 9]).firstFault = some (.registerIndexFault, 9) ∧
      (placed 254 [0x50, 7]).firstFault = some (.memoryAddressFault, 256) ∧ (placed 253 [0x50, 7]).firstFault = none ∧
      (placed 0 [0x82, 7, 9]).firstFault = none := by decide
theorem witness_FaultWritesRunStateAndRecordOnly :
    (placed 255 [0xFF]).rs = .running ∧ (stepped (placed 255 [0xFF])).rs = .faulted ∧ (∃ t, step (placed 255 [0xFF]) = .next t) ∧
      ∃ r, fetchInstr Config.machine (placed 255 [0xFF]) = .error r := ⟨rfl, by decide, ⟨_, rfl⟩, _, rfl⟩
/-- The clauses about a handler that raises: a step fetches ADD with its second index outside 0..7. -/
theorem witness_FaultWritesRunStateAndRecordOnly_handler :
    (placed 253 [0xA0, 7, 8]).rs = .running ∧ fetchInstr Config.machine (placed 253 [0xA0, 7, 8]) = .ok (.add 7 8) ∧
      ruleWith Config.machine (.add 7 8) (placed 253 [0xA0, 7, 8]) = .error ⟨.registerIndexFault, 8⟩ := ⟨rfl, rfl, rfl⟩
theorem witness_FirstIllegalRegisterOperandFaults :
    (Instr.compare 7 8).registerOperands.find? (fun r => decide (7 < r.toNat)) = some 8 ∧
      (Instr.jumpIfEqual 255).registerOperands.find? (fun r => decide (7 < r.toNat)) = some 255 := by decide
theorem witness_CallWithUnstorableReturnAddressFaults : Names 7 7 ∧ 255 < (placed 254 [0x50, 7]).pc + 2 := by decide
theorem witness_UnsupportedAluSelectFaultsAndIsUnreachable :
    (∃ t, step (placed 0 [0xFF]) = .next t) ∧ (stepped (placed 0 [0xFF])).fr = some ⟨.decodeFault, 0, 255⟩ := ⟨⟨_, rfl⟩, by decide⟩
theorem witness_RegIdxByPolicy :
    Names 7 7 ∧ 7 < (8 : Byte).toNat ∧ Config.machine.regIndexPolicy = .fault ∧
      { Config.machine with regIndexPolicy := .mask3 }.regIndexPolicy = .mask3 := by decide
theorem witness_MaskPolicyNeverRaisesIndexFault :
    ∃ t, stepWith { Config.machine with regIndexPolicy := .mask3 } (placed 0 [0xFF]) = some t ∧
      t.fr = some ⟨.decodeFault, 0, 255⟩ := ⟨_, rfl, by decide⟩
theorem witness_StackAddressFaultsInSmallMemory :
    Names 0 0 ∧ 0xF3 ≤ (State.reset.reg 7 - 1).toNat ∧ 0xF4 ≤ (State.reset.reg 7).toNat ∧ (placed 253 []).pc + 2 ≤ 255 := by
  decide
/-- An operand names a register exactly at 0 and at 7, the ends of the range; the results and frames rest on no other premise
(`exec` always answers a next state). -/
theorem witness_names : Names 0 0 ∧ Names 7 7 ∧ ¬Names 8 7 := by decide
theorem witness_exec_answers (i : Instr) : ∃ t, exec i State.reset = .next t := ⟨_, exec_eq_execWith _ _⟩
theorem witness_CallCompletes : Names 7 7 ∧ (placed 253 []).pc + 2 ≤ 255 := by decide
theorem witness_PopCompletes : (3 : RegIndex) ≠ 7 ∧ Names 3 3 ∧ Names 7 7 := by decide
theorem witness_RegisterResultFrame :
    (∃ t, exec (.add 6 7) State.reset = .next t) ∧ ¬Names 6 7 ∧ ¬Names 8 7 := ⟨⟨_, exec_eq_execWith _ _⟩, by decide, by decide⟩
theorem witness_PrintAndCompareFrame :
    (∃ t, exec (.printRegister 8) State.reset = .next t) ∧ ∃ t, exec (.compare 7 7) State.reset = .next t :=
  ⟨⟨_, exec_eq_execWith _ _⟩, _, exec_eq_execWith _ _⟩
theorem witness_PopAndReturnFrame :
    (∃ t, exec (.pop 6) State.reset = .next t) ∧ ¬Names 6 0 ∧ (0 : RegIndex) ≠ 7 ∧ ∃ t, exec .ret State.reset = .next t :=
  ⟨⟨_, exec_eq_execWith _ _⟩, by decide, by decide, _, exec_eq_execWith _ _⟩
theorem witness_JumpAndHaltFrame :
    (∃ t, exec (.jump 255) State.reset = .next t) ∧ (∃ t, exec (.jumpIfEqual 7) State.reset = .next t) ∧
      (∃ t, exec (.jumpIfNotEqual 0) State.reset = .next t) ∧ ∃ t, exec .halt State.reset = .next t :=
  ⟨⟨_, exec_eq_execWith _ _⟩, ⟨_, exec_eq_execWith _ _⟩, ⟨_, exec_eq_execWith _ _⟩, _, exec_eq_execWith _ _⟩
theorem witness_OnlyPrintRegisterEmits :
    (∃ t, exec (.printRegister 7) State.reset = .next t) ∧ (after (.printRegister 7) State.reset).out ≠ State.reset.out :=
  ⟨⟨_, exec_eq_execWith _ _⟩, by decide⟩
theorem witness_PushThenPopRestores : Names 0 0 ∧ Names 6 6 ∧ (0 : RegIndex) ≠ 7 ∧ (6 : RegIndex) ≠ 7 ∧ Names 7 7 := by decide
theorem witness_PushAndCallFrame :
    (∃ t, exec (.call 7) State.reset = .next t) ∧ 0xF4 ≠ State.reset.decrementSp.sp.toNat := ⟨⟨_, exec_eq_execWith _ _⟩, by decide⟩
theorem witness_FlagsAreWrittenByCompareAndEqualIsReadByJumps :
    (∃ t, exec (.add 0 1) State.reset = .next t) ∧ (∀ a b, Instr.add 0 1 ≠ .compare a b) ∧
      ∀ a, Instr.add 0 1 ≠ .jumpIfEqual a ∧ Instr.add 0 1 ≠ .jumpIfNotEqual a :=
  ⟨⟨_, exec_eq_execWith _ _⟩, by simp, by simp⟩
theorem witness_OnlyPushAndCallWriteMemory :
    (∃ t, step (placed 0 [0x46, 7]) = .next t) ∧ (placed 0 [0x46, 7]).mem.read 0 ∉ ([0x45, 0x50] : List Byte) ∧
      ∀ a, Instr.pop 7 ≠ .push a ∧ Instr.pop 7 ≠ .call a := ⟨⟨_, rfl⟩, by decide, by simp⟩
theorem witness_OnlyPushAndCallWriteMemory_fetch :
    fetchInstr Config.machine (placed 255 [0x45]) = .error ⟨.memoryAddressFault, 256⟩ ∧ ∃ t, step (placed 255 [0x45]) = .next t :=
  ⟨rfl, _, rfl⟩
theorem witness_RegisterWriteTable :
    (∃ t, exec (.pop 0) State.reset = .next t) ∧ (after (.pop 0) State.reset).reg 7 ≠ State.reset.reg 7 :=
  ⟨⟨_, exec_eq_execWith _ _⟩, by decide⟩
theorem witness_UnnamedRegistersAreNotRead :
    (∃ t, exec (.add 0 1) State.reset = .next t) ∧ (6 : RegIndex) ≠ 7 ∧ ∀ r ∈ (Instr.add 0 1).registerOperands, ¬Names r 6 :=
  ⟨⟨_, exec_eq_execWith _ _⟩, by decide, by decide⟩
theorem witness_HaltedExactlyByHalt : (∃ t, step (placed 255 [0x01]) = .next t) ∧ (∃ t, step (placed 256 []) = .next t) :=
  ⟨⟨_, rfl⟩, _, rfl⟩
theorem witness_OrdinaryStepAdvances :
    (placed 253 [0x82, 0, 9]).rs = .running ∧ fetchInstr Config.machine (placed 253 [0x82, 0, 9]) = .ok (.loadImmediate 0 9) ∧
      (∃ t, step (placed 253 [0x82, 0, 9]) = .next t) ∧ (stepped (placed 253 [0x82, 0, 9])).rs ≠ .faulted :=
  ⟨rfl, rfl, ⟨_, rfl⟩, by decide⟩
theorem witness_ControlFlowSetsPc :
    (stepped (placed 253 [0x50, 7])).rs = .running ∧ (stepped (placed 255 [0x11])).rs = .running ∧
      (stepped (placed 254 [0x54, 0])).rs = .running ∧ (stepped (placed 254 [0x55, 7])).rs = .running ∧
      (stepped (placed 254 [0x56, 7])).rs = .running ∧
      fetchInstr Config.machine (placed 253 [0x50, 7]) = .ok (.call 7) ∧ fetchInstr Config.machine (placed 255 [0x11]) = .ok .ret ∧
      fetchInstr Config.machine (placed 254 [0x54, 0]) = .ok (.jump 0) ∧
      fetchInstr Config.machine (placed 254 [0x55, 7]) = .ok (.jumpIfEqual 7) ∧
      fetchInstr Config.machine (placed 254 [0x56, 7]) = .ok (.jumpIfNotEqual 7) :=
  ⟨by decide, by decide, by decide, by decide, by decide, rfl, rfl, rfl, rfl, rfl⟩
theorem witness_CompareSetsExactlyOneFlag :
    Names 7 7 ∧ Names 0 0 ∧ (∃ t, exec (.compare 7 0) State.reset = .next t) ∧
      (after (.compare 0 0) State.reset).flags.exactlyOne := ⟨rfl, rfl, ⟨_, exec_eq_execWith _ _⟩, by decide⟩
theorem witness_ReturnResumesAfterCall :
    Names 7 7 ∧ (placed 253 []).pc + 2 ≤ 255 ∧ exec (.call 7) (placed 253 []) = .next (after (.call 7) (placed 253 [])) := ⟨rfl, by decide, rfl⟩
theorem witness_ConditionalJumpsAreComplementary :
    Names 7 7 ∧ (∃ t, exec (.jumpIfEqual 7) State.reset = .next t) ∧ ∃ u, exec (.jumpIfNotEqual 7) State.reset = .next u :=
  ⟨rfl, ⟨_, exec_eq_execWith _ _⟩, _, exec_eq_execWith _ _⟩
theorem witness_StoredBytesAreFetched :
    Names 7 7 ∧ (∃ t, exec (.push 7) State.reset = .next t) ∧ (∃ t, exec (.call 7) State.reset = .next t) ∧
      State.reset.pc + 2 ≤ 255 ∧ (State.reset.reg 7 - 1).toNat = 0xF3 :=
  ⟨rfl, ⟨_, exec_eq_execWith _ _⟩, ⟨_, exec_eq_execWith _ _⟩, by decide, by decide⟩
/-- The state after reset and a halted and a faulted state with their records meet the machine's invariant. -/
theorem witness_invariant_running : (placed 256 []).Inv := ⟨by decide, by decide, by decide, by decide, fun _ h => by cases h⟩
theorem witness_invariant_halted : (stepped (placed 0 [0x01])).Inv :=
  ⟨by decide, by decide, by decide, by decide, fun _ h => by cases h⟩
theorem witness_invariant_faulted : (stepped (placed 256 [])).Inv :=
  ⟨by decide, by decide, by decide, by decide, fun _ h => by cases h; decide⟩
theorem witness_StepKeepsInvariant : ∃ t, step (placed 256 []) = .next t := ⟨_, rfl⟩
theorem witness_BootLoadsTheImage : (∃ image : List Byte, image.length = 256) ∧ ∃ image : List Byte, image.length = 257 :=
  ⟨⟨List.replicate 256 1, List.length_replicate⟩, List.replicate 257 1, List.length_replicate⟩
theorem witness_CanonicalMemoryIsDetermined :
    Memory.wf 256 [(0, 1), (255, 2)] ∧ Memory.wf 256 (Memory.write [(0, 1)] 255 2) ∧
      ∀ addr, Memory.read [(0, 1), (255, 2)] addr = (Memory.write [(0, 1)] 255 2).read addr := ⟨by decide, by decide, fun _ => rfl⟩

end Sys2Proof.Tests
end

section
/-! Replacing the flags (10_state.md R27). An instruction that neither reads nor writes a flag commutes with it, and that one
equation says both: read with the state's own flags, it says that the instruction keeps them. -/

namespace Sys2Proof.Machine

/-- The state with other flags in it. -/
def State.withFlags (s : State) (f : Flags) : State := { s with flags := f }

@[simp] theorem withFlags_flags (s : State) (f : Flags) : (s.withFlags f).flags = f := rfl
@[simp] theorem withFlags_pc (s : State) (f : Flags) : (s.withFlags f).pc = s.pc := rfl
@[simp] theorem withFlags_sp (s : State) (f : Flags) : (s.withFlags f).sp = s.sp := rfl
@[simp] theorem withFlags_self (s : State) : s.withFlags s.flags = s := rfl
theorem decrementSp_withFlags (s : State) (f : Flags) : (s.withFlags f).decrementSp = s.decrementSp.withFlags f := rfl

/-! ## Operations and ends of a step -/

theorem takeFault_withFlags (r : Raise) (s : State) (f : Flags) :
    takeFault r (s.withFlags f) = (takeFault r s).withFlags f := rfl

theorem storeAtSp_withFlags (c : Config) (v : Byte) (s : State) (f : Flags) :
    storeAtSp c v (s.withFlags f) = (storeAtSp c v s).map (·.withFlags f) := by
  by_cases h : s.sp.toNat < c.memSize
  · simp only [storeAtSp, withFlags_sp, writeMem_of_lt h]
    rfl
  · simp only [storeAtSp, withFlags_sp, writeMem_of_ge (Nat.not_lt.mp h)]
    rfl

/-- A sequence commutes with the replacement where its last part does and its first part does not look at the flags. -/
theorem bind_withFlags {α : Type} (x : Except Raise α) {p q : α → Attempt} {f : Flags}
    (h : ∀ a, p a = (q a).map (·.withFlags f)) : (x >>= p) = (x >>= q).map (·.withFlags f) := by
  cases x with
  | ok a => exact h a
  | error r => rfl

/-- The same where the first part gives a state, in which the flags are replaced too. -/
theorem map_bind_withFlags (x : Attempt) {p q : State → Attempt} {f : Flags}
    (h : ∀ t, p (t.withFlags f) = (q t).map (·.withFlags f)) :
    (x.map (·.withFlags f) >>= p) = (x >>= q).map (·.withFlags f) := by
  cases x with
  | ok t => exact h t
  | error r => rfl

theorem finishWith_withFlags (c : Config) (m : Mnemonic) (s : State) (r : Attempt) (f : Flags) :
    finishWith c m (s.withFlags f) (r.map (·.withFlags f)) = (finishWith c m s r).withFlags f := by
  cases r with
  | ok t => cases m <;> rfl
  | error e => cases m <;> rfl

/-! ## Rules -/

/-- CALL stores the return address and then jumps; no part of it looks at the flags. -/
theorem callRule_withFlags (c : Config) (a : Byte) (s : State) (f : Flags) :
    callRule c a (s.withFlags f) = (callRule c a s).map (·.withFlags f) := by
  refine bind_withFlags _ fun i => ?_
  simp only [withFlags_pc, decrementSp_withFlags, storeAtSp_withFlags]
  split
  · rfl
  · exact map_bind_withFlags _ fun _ => rfl

theorem jumpIfRule_withFlags (c : Config) (taken : Bool) (a : Byte) (s : State) (f : Flags) :
    jumpIfRule c taken a (s.withFlags f) = (jumpIfRule c taken a s).map (·.withFlags f) := by
  refine bind_withFlags _ fun i => ?_
  cases taken <;> rfl

/-- COMPARE overwrites whatever flags it finds. -/
theorem compareRule_withFlags (c : Config) (a b : Byte) (s : State) (f : Flags) :
    compareRule c a b (s.withFlags f) = compareRule c a b s := rfl

theorem ruleWith_withFlags {c : Config} {i : Instr} {s : State} {f : Flags} (hcompare : ∀ a b, i ≠ .compare a b)
    (hequal : f.equal = s.flags.equal ∨ ∀ a, i ≠ .jumpIfEqual a ∧ i ≠ .jumpIfNotEqual a) :
    ruleWith c i (s.withFlags f) = (ruleWith c i s).map (·.withFlags f) := by
  cases i with
  | halt => rfl
  | loadImmediate a imm => exact bind_withFlags _ fun _ => rfl
  | printRegister a => exact bind_withFlags _ fun _ => rfl
  | add a b => exact bind_withFlags _ fun _ => bind_withFlags _ fun _ => rfl
  | multiply a b => exact bind_withFlags _ fun _ => bind_withFlags _ fun _ => rfl
  | compare a b => exact absurd rfl (hcompare a b)
  | push a => exact bind_withFlags _ fun k => storeAtSp_withFlags c (s.decrementSp.reg k) s.decrementSp f
  | pop a => exact bind_withFlags _ fun _ => bind_withFlags _ fun _ => rfl
  | call a => exact callRule_withFlags c a s f
  | ret => exact bind_withFlags _ fun _ => rfl
  | jump a => exact bind_withFlags _ fun _ => rfl
  | jumpIfEqual a =>
    have he := hequal.resolve_right fun h => (h a).1 rfl
    simp only [ruleWith, withFlags_flags, he, jumpIfRule_withFlags]
  | jumpIfNotEqual a =>
    have he := hequal.resolve_right fun h => (h a).2 rfl
    simp only [ruleWith, withFlags_flags, he, jumpIfRule_withFlags]

/-! ## Instructions -/

/-- Every instruction but COMPARE, with other flags and the Equal it reads kept: the same effect, and those flags kept. -/
theorem execWith_withFlags {c : Config} {i : Instr} {s : State} {f : Flags} (hcompare : ∀ a b, i ≠ .compare a b)
    (hequal : f.equal = s.flags.equal ∨ ∀ a, i ≠ .jumpIfEqual a ∧ i ≠ .jumpIfNotEqual a) :
    execWith c i (s.withFlags f) = (execWith c i s).withFlags f := by
  rw [execWith, ruleWith_withFlags hcompare hequal, finishWith_withFlags, ← execWith]

/-- An instruction other than COMPARE keeps the flags: take the state's own flags as the other ones. -/
theorem execWith_flags {c : Config} {i : Instr} (s : State) (hcompare : ∀ a b, i ≠ .compare a b) :
    (execWith c i s).flags = s.flags := by
  have hself : execWith c i s = (execWith c i s).withFlags s.flags := execWith_withFlags hcompare (.inl rfl)
  rw [hself, withFlags_flags]

/-- COMPARE with other flags differs in the flags alone: its own where it completes, the given ones where it faults. -/
theorem execWith_compare_withFlags (c : Config) (a b : Byte) (s : State) (f : Flags) :
    ∃ f', execWith c (.compare a b) (s.withFlags f) = (execWith c (.compare a b) s).withFlags f' := by
  have hrule : ruleWith c (.compare a b) (s.withFlags f) = ruleWith c (.compare a b) s := compareRule_withFlags c a b s f
  cases h : ruleWith c (.compare a b) s with
  | ok t => exact ⟨t.flags, by rw [execWith, execWith, hrule, h]; rfl⟩
  | error r => exact ⟨f, by rw [execWith_of_error h, execWith_of_error (hrule.trans h), takeFault_withFlags]⟩

/-- With other flags, and the same Equal for an instruction that reads it, only the flags of the next state differ. -/
theorem exec_withFlags {i : Instr} {s t : State} {f : Flags} (hexec : exec i s = .next t)
    (hequal : f.equal = s.flags.equal ∨ ∀ a, i ≠ .jumpIfEqual a ∧ i ≠ .jumpIfNotEqual a) :
    ∃ f', exec i (s.withFlags f) = .next (t.withFlags f') := by
  obtain rfl := (exec_next_iff i s t).mp hexec
  simp only [exec_eq_execWith, Host.Outcome.next.injEq]
  by_cases hcompare : ∃ a b, i = .compare a b
  · obtain ⟨a, b, rfl⟩ := hcompare
    exact execWith_compare_withFlags _ a b s f
  · exact ⟨f, execWith_withFlags (fun a b h => hcompare ⟨a, b, h⟩) hequal⟩

/-- Settles O38 (10_state.md R27): replacing flags commutes with every instruction that does not read or write them, and
COMPARE overwrites them. -/
theorem flagsAreWrittenByCompareAndEqualIsReadByJumps : Obligations.FlagsAreWrittenByCompareAndEqualIsReadByJumps := by
  refine ⟨fun i s t hexec hcompare => ?_, fun i s t l g hexec => ?_, fun i s t f hexec hjumps => ?_⟩
  · obtain rfl := (exec_next_iff i s t).mp hexec
    exact execWith_flags s hcompare
  · exact exec_withFlags hexec (.inl rfl)
  · exact exec_withFlags hexec (.inr hjumps)

end Sys2Proof.Machine
end

section
/-! PROOFS. The operand count in the opcode byte (30_encoding.md R72): what `op[7:6]` is as a number, and that no opcode
under an admitted configuration has the value 3 there. -/

namespace Sys2Proof.Machine

theorem operandCount_eq_div (op : Byte) : operandCount op = op.toNat / 64 := by
  simp [operandCount, BitVec.toNat_ushiftRight, Nat.shiftRight_eq_div_pow]

theorem format_operandBytes_le_two (f : Format) : f.operandBytes ≤ 2 := by
  cases f <;> decide

/-- An opcode byte that some row of the table has announces at most two operand bytes. -/
theorem operandCount_le_two_of_decodeOpcode_some {c : Config} (hc : c.Admitted) {op : Byte} {m : Mnemonic}
    (hop : decodeOpcode c op = some m) : operandCount op ≤ 2 := by
  obtain ⟨hcount, -⟩ := hc
  rw [← decodeOpcode_some hop, hcount m (Mnemonic_mem_all m)]
  exact format_operandBytes_le_two m.format

/-- The bytes 0xC0..0xFF are those with `op[7:6]` = 3, so they are unknown whatever admitted values the opcodes have. -/
theorem decodeOpcode_eq_none_of_top_bits_three {c : Config} (hc : c.Admitted) {op : Byte} (htop : 0xC0 ≤ op.toNat) :
    decodeOpcode c op = none := by
  refine Option.eq_none_iff_forall_ne_some.mpr fun m hop => ?_
  have hle := operandCount_le_two_of_decodeOpcode_some hc hop
  rw [operandCount_eq_div] at hle
  omega

/-- Settles O4 (30_encoding.md R72): the shift by 6 is division by 64, and a known opcode's count is its format's. -/
theorem operandCountIsTheTopTwoBits : Obligations.OperandCountIsTheTopTwoBits := by
  refine ⟨operandCount_eq_div, fun op s => ?_, fun m => ?_, fun op => ?_⟩
  · rw [advance, operandCount_eq_div]
  · exact operandCount_le_two_of_decodeOpcode_some machine_admitted (decodeOpcode_opcodeMap m)
  · exact decodeOpcode_eq_none_of_top_bits_three machine_admitted

end Sys2Proof.Machine
end

section
/-! PROOFS. The engine (40_engine.md): a step by what the fetch answers and by RS, an unknown opcode, the general advance of
the ordinary instructions, and the two terminal run states. -/

namespace Sys2Proof.Machine

/-! ## The step by RS and by the fetch's answer -/

theorem step_of_fetchInstr_ok {s : State} {i : Instr} (hrs : s.rs = .running)
    (hfetch : fetchInstr Config.machine s = .ok i) : step s = exec i s := by
  simp only [step, hrs, hfetch]

theorem step_of_fetchInstr_error {s : State} {r : Raise} (hrs : s.rs = .running)
    (hfetch : fetchInstr Config.machine s = .error r) : step s = .next (takeFault r s) := by
  simp only [step, hrs, hfetch]

theorem step_of_halted {s : State} (hrs : s.rs = .halted) : step s = .fault .noStepFromHalted := by
  simp only [step, hrs]

theorem step_of_faulted {s : State} (hrs : s.rs = .faulted) : step s = .fault .noStepFromFaulted := by
  simp only [step, hrs]

theorem step_ne_next_of_not_running {s : State} (hrs : s.rs ≠ .running) (t : State) : step s ≠ .next t := by
  cases h : s.rs with
  | running => exact absurd h hrs
  | halted => simp [step_of_halted h]
  | faulted => simp [step_of_faulted h]

/-! ## Unknown opcodes (40_engine.md R102) -/

theorem decodeOpcode_eq_none {c : Config} {op : Byte} (hop : ∀ m, c.opcode m ≠ op) : decodeOpcode c op = none :=
  Option.eq_none_iff_forall_ne_some.mpr fun m hm => hop m (decodeOpcode_some hm)

/-- Settles O7 (40_engine.md R102): the fetch raises DecodeFault(op) before it looks at any operand byte. -/
theorem unknownOpcodeFaults : Obligations.UnknownOpcodeFaults := by
  rintro s op hrs hpc rfl hunknown
  have hdecode : decodeOpcode Config.machine (s.mem.read s.pc) = none := decodeOpcode_eq_none hunknown
  exact step_of_fetchInstr_error hrs (fetchInstr_unknown hpc hdecode)

/-! ## Ordinary instructions (40_engine.md R106) -/

/-- The ordinary instructions: those whose step ends in the general advance. -/
abbrev ordinaryMnemonics : List Mnemonic := [.loadImmediate, .printRegister, .add, .multiply, .compare, .push, .pop]

theorem finishWith_ordinary {m : Mnemonic} (hm : m ∈ ordinaryMnemonics) (c : Config) (s : State) (r : Attempt) :
    finishWith c m s r = finishOrdinary c m s r := by
  cases m with
  | loadImmediate | printRegister | add | multiply | compare | push | pop => rfl
  | halt | call | ret | jump | jumpIfEqual | jumpIfNotEqual => simp at hm

/-- A rule that completes leaves pc where `s` has it. -/
def KeepsPc (s : State) (r : Attempt) : Prop := ∀ t, r = .ok t → t.pc = s.pc

theorem keepsPc_ok {s t : State} (h : t.pc = s.pc) : KeepsPc s (.ok t) := by
  rintro _ ⟨⟩
  exact h

theorem keepsPc_bind {α : Type} {s : State} (x : Except Raise α) {f : α → Attempt} (h : ∀ a, KeepsPc s (f a)) :
    KeepsPc s (x >>= f) := fun t ht => by
  obtain ⟨a, -, ha⟩ := bind_ok ht
  exact h a t ha

theorem keepsPc_storeAtSp (c : Config) (v : Byte) (s : State) : KeepsPc s (storeAtSp c v s) := by
  rw [storeAtSp, writeMem]
  split
  · exact keepsPc_ok rfl
  · rintro _ ⟨⟩

theorem ruleWith_ordinary_keepsPc {i : Instr} (hi : i.mnemonic ∈ ordinaryMnemonics) (c : Config) (s : State) :
    KeepsPc s (ruleWith c i s) := by
  cases i with
  | loadImmediate a imm => exact keepsPc_bind _ fun _ => keepsPc_ok rfl
  | printRegister a => exact keepsPc_bind _ fun _ => keepsPc_ok rfl
  | add a b => exact keepsPc_bind _ fun _ => keepsPc_bind _ fun _ => keepsPc_ok rfl
  | multiply a b => exact keepsPc_bind _ fun _ => keepsPc_bind _ fun _ => keepsPc_ok rfl
  | compare a b => exact keepsPc_bind _ fun _ => keepsPc_bind _ fun _ => keepsPc_ok rfl
  | push a => exact keepsPc_bind _ fun k => keepsPc_storeAtSp c (s.decrementSp.reg k) s.decrementSp
  | pop a => exact keepsPc_bind _ fun _ => keepsPc_bind _ fun _ => keepsPc_ok rfl
  | halt | ret | call a | jump a | jumpIfEqual a | jumpIfNotEqual a => simp [Instr.mnemonic] at hi

/-- An ordinary instruction faults, or its effect is its rule's with pc advanced by 1 + op[7:6] from where it was. -/
theorem execWith_ordinary_pc {i : Instr} (hi : i.mnemonic ∈ ordinaryMnemonics) (c : Config) (s : State) :
    (execWith c i s).rs = .faulted ∨ (execWith c i s).pc = s.pc + 1 + operandCount (c.opcode i.mnemonic) := by
  rw [execWith, finishWith_ordinary hi]
  cases hrule : ruleWith c i s with
  | ok t => exact .inr (by simp [ruleWith_ordinary_keepsPc hi c s t hrule])
  | error r => exact .inl rfl

@[simp] theorem assemble_mnemonic (m : Mnemonic) (a b : Byte) : (assemble m a b).mnemonic = m := by
  cases m <;> rfl

/-- A fetched instruction is the one whose opcode stands at pc. -/
theorem opcodeMap_of_fetchInstr_ok {s : State} {i : Instr} (hfetch : fetchInstr Config.machine s = .ok i) :
    opcodeMap i.mnemonic = s.mem.read s.pc := by
  rcases fetchInstr_cases s with ⟨-, h⟩ | ⟨-, -, h⟩ | ⟨m, -, hop, ⟨-, h⟩ | ⟨k, -, -, -, h⟩⟩ <;> cases hfetch.symm.trans h
  rwa [assemble_mnemonic]

/-- Settles O44 (40_engine.md R106): the rule leaves pc alone, and the advance is by the count in the opcode byte at pc. -/
theorem ordinaryStepAdvances : Obligations.OrdinaryStepAdvances := by
  intro s t i hrs hfetch hi hstep
  have hexec : exec i s = .next t := (step_of_fetchInstr_ok hrs hfetch).symm.trans hstep
  refine ⟨hexec, fun hok => ?_⟩
  obtain rfl := (exec_next_iff i s t).mp hexec
  have hpc := (execWith_ordinary_pc hi Config.machine s).resolve_left hok
  rwa [machine_opcode, opcodeMap_of_fetchInstr_ok hfetch, operandCount_eq_div] at hpc

/-! ## Terminal run states (40_engine.md R110) -/

/-- A reset with load that is accepted starts a run (70_reset_and_hazards.md R230). -/
theorem bootWith_ok_rs {c : Config} {image : List Byte} {t : State} (hboot : bootWith c image = .ok t) :
    t.rs = .running := by
  unfold bootWith at hboot
  split at hboot <;> cases hboot
  rfl

/-- Settles O9 (40_engine.md R110): `step` answers a next state only from Running, and a reset ends in Running. -/
theorem terminalStatesAreLeftByResetOnly : Obligations.TerminalStatesAreLeftByResetOnly := fun _ hrs =>
  ⟨step_ne_next_of_not_running hrs, rfl, fun _ _ hboot => bootWith_ok_rs hboot⟩

end Sys2Proof.Machine
end

section
/-! PROOFS. Faults (60_exceptions.md R203): a raised fault is taken whatever raised it; and since no handler writes Faulted
itself, a step that ends in Faulted has taken one. -/

namespace Sys2Proof.Machine

/-! ## Fields of the state that a rule keeps -/

/-- A rule that completes leaves the field `f` as it is in `s`. -/
def Keeps {α : Type} (f : State → α) (s : State) (r : Attempt) : Prop := ∀ t, r = .ok t → f t = f s

theorem keeps_ok {α : Type} {f : State → α} {s t : State} (h : f t = f s) : Keeps f s (.ok t) := by
  rintro _ ⟨⟩
  exact h

theorem keeps_error {α : Type} {f : State → α} {s : State} {r : Raise} : Keeps f s (.error r) := by
  rintro _ ⟨⟩

/-- A sequence keeps a field where its last part does, which may use what its first part answers. -/
theorem keeps_bind {α β : Type} {f : State → α} {s : State} {x : Except Raise β} {g : β → Attempt}
    (h : ∀ b, x = .ok b → Keeps f s (g b)) : Keeps f s (x >>= g) := fun t ht => by
  obtain ⟨b, hb, hgb⟩ := bind_ok ht
  exact h b hb t hgb

/-! ## The run state (60_exceptions.md R208) -/

theorem storeAtSp_keeps_rs (c : Config) (v : Byte) (s : State) : Keeps State.rs s (storeAtSp c v s) := fun t ht => by
  obtain ⟨-, rfl⟩ := writeMem_ok ht
  rfl

theorem callRule_keeps_rs (c : Config) (a : Byte) (s : State) : Keeps State.rs s (callRule c a s) := by
  refine keeps_bind fun i _ => ?_
  dsimp only
  split
  · exact keeps_error
  · exact keeps_bind fun s₁ hs₁ => keeps_ok (storeAtSp_keeps_rs c _ s.decrementSp s₁ hs₁)

theorem jumpIfRule_keeps_rs (c : Config) (taken : Bool) (a : Byte) (s : State) :
    Keeps State.rs s (jumpIfRule c taken a s) :=
  keeps_bind fun _ _ => keeps_ok (by cases taken <;> rfl)

/-- HALT is the only instruction that changes the run state. -/
theorem ruleWith_keeps_rs {i : Instr} (hi : i ≠ .halt) (c : Config) (s : State) : Keeps State.rs s (ruleWith c i s) := by
  cases i with
  | halt => exact absurd rfl hi
  | loadImmediate a imm => exact keeps_bind fun _ _ => keeps_ok rfl
  | printRegister a => exact keeps_bind fun _ _ => keeps_ok rfl
  | add a b => exact keeps_bind fun _ _ => keeps_bind fun _ _ => keeps_ok rfl
  | multiply a b => exact keeps_bind fun _ _ => keeps_bind fun _ _ => keeps_ok rfl
  | compare a b => exact keeps_bind fun _ _ => keeps_bind fun _ _ => keeps_ok rfl
  | push a => exact keeps_bind fun k _ => storeAtSp_keeps_rs c (s.decrementSp.reg k) s.decrementSp
  | pop a => exact keeps_bind fun _ _ => keeps_bind fun _ _ => keeps_ok rfl
  | call a => exact callRule_keeps_rs c a s
  | ret => exact keeps_bind fun _ _ => keeps_ok rfl
  | jump a => exact keeps_bind fun _ _ => keeps_ok rfl
  | jumpIfEqual a => exact jumpIfRule_keeps_rs c s.flags.equal a s
  | jumpIfNotEqual a => exact jumpIfRule_keeps_rs c (!s.flags.equal) a s

/-- A handler that completes does not leave Faulted where it did not find it: HALT leaves Halted, the others what they found. -/
theorem ruleWith_ok_not_faulted {c : Config} {i : Instr} {s t : State} (hs : s.rs ≠ .faulted)
    (hrule : ruleWith c i s = .ok t) : t.rs ≠ .faulted := by
  by_cases hi : i = .halt
  · subst hi
    cases hrule
    simp [haltRule]
  · rwa [ruleWith_keeps_rs hi c s t hrule]

/-! ## Where a fault comes from -/

theorem execWith_rs_faulted_iff {c : Config} {i : Instr} {s : State} (hs : s.rs ≠ .faulted) :
    (execWith c i s).rs = .faulted ↔ ∃ r, ruleWith c i s = .error r := by
  cases hrule : ruleWith c i s with
  | error r => simp [execWith_of_error hrule]
  | ok t =>
    have ht := ruleWith_ok_not_faulted hs hrule
    rcases execWith_of_ok hrule with h | h <;> simp [h, ht]

theorem exec_of_ruleWith_error {i : Instr} {s : State} {r : Raise} (hrule : ruleWith Config.machine i s = .error r) :
    exec i s = .next (takeFault r s) := by
  rw [exec_eq_execWith, execWith_of_error hrule]

/-- A step that ends in Faulted took a fault that the fetch, the decoding or the fetched instruction's handler raised. -/
theorem step_faulted_cause {s t : State} (hrs : s.rs = .running) (hstep : step s = .next t) (ht : t.rs = .faulted) :
    ∃ r : Raise, t = takeFault r s ∧ (fetchInstr Config.machine s = .error r ∨
      ∃ i, fetchInstr Config.machine s = .ok i ∧ ruleWith Config.machine i s = .error r) := by
  cases hfetch : fetchInstr Config.machine s with
  | error r =>
    have htaken := hstep.symm.trans (step_of_fetchInstr_error hrs hfetch)
    exact ⟨r, Host.Outcome.next.inj htaken, .inl rfl⟩
  | ok i =>
    have hexec : exec i s = .next t := (step_of_fetchInstr_ok hrs hfetch).symm.trans hstep
    obtain rfl := (exec_next_iff i s t).mp hexec
    obtain ⟨r, hrule⟩ := (execWith_rs_faulted_iff (by simp [hrs])).mp ht
    exact ⟨r, execWith_of_error hrule, .inr ⟨i, rfl, hrule⟩⟩

/-- Settles O13 (60_exceptions.md R203): the three raises end in `takeFault`, and no handler that completes is Faulted. -/
theorem faultWritesRunStateAndRecordOnly : Obligations.FaultWritesRunStateAndRecordOnly :=
  ⟨fun _ _ _ hrule => exec_of_ruleWith_error hrule,
    fun _ _ _ hrs hfetch hrule => (step_of_fetchInstr_ok hrs hfetch).trans (exec_of_ruleWith_error hrule),
    fun _ _ hrs hfetch => step_of_fetchInstr_error hrs hfetch,
    fun _ _ hrs hstep ht => step_faulted_cause hrs hstep ht⟩

end Sys2Proof.Machine
end

section
/-! PROOFS. Encoding (30_encoding.md): the decoder and the encoder are inverse to each other under every admitted
configuration. -/

namespace Sys2Proof.Machine

/-! ## The opcode byte (30_encoding.md R76 to R78) -/

theorem opcode_injective {c : Config} (hc : c.Admitted) {m m' : Mnemonic} (h : c.opcode m = c.opcode m') : m = m' := by
  obtain ⟨-, hdistinct, -⟩ := hc
  exact hdistinct m (Mnemonic_mem_all m) m' (Mnemonic_mem_all m') h

theorem operandCount_opcode {c : Config} (hc : c.Admitted) (m : Mnemonic) :
    operandCount (c.opcode m) = m.format.operandBytes := by
  obtain ⟨hcount, -⟩ := hc
  exact hcount m (Mnemonic_mem_all m)

/-- No other row of an admitted table has the opcode byte of `m`, so the search finds `m`. -/
theorem decodeOpcode_opcode {c : Config} (hc : c.Admitted) (m : Mnemonic) : decodeOpcode c (c.opcode m) = some m := by
  cases h : decodeOpcode c (c.opcode m) with
  | none => exact absurd rfl (decodeOpcode_none h m)
  | some m' => rw [opcode_injective hc (decodeOpcode_some h)]

/-! ## The operand bytes (30_encoding.md R73) -/

theorem takeOperands_operands (i : Instr) (rest : List Byte) :
    takeOperands i.mnemonic i.mnemonic.format.operandBytes (i.operands ++ rest) = .ok (i, rest) := by
  cases i <;> rfl

theorem operands_assemble (m : Mnemonic) (a b : Byte) :
    (assemble m a b).operands = [a, b].take m.format.operandBytes := by
  cases m <;> rfl

/-- What the decoder takes as operands are the operand bytes of the instruction it answers. -/
theorem takeOperands_ok {m : Mnemonic} {bs rest : List Byte} {i : Instr}
    (h : takeOperands m m.format.operandBytes bs = .ok (i, rest)) : i.mnemonic = m ∧ bs = i.operands ++ rest := by
  generalize hn : m.format.operandBytes = n at h
  unfold takeOperands at h
  split at h <;> cases h <;> simp [operands_assemble, hn]

/-! ## Round trips -/

theorem decodeWith_encodeWith {c : Config} (hc : c.Admitted) (i : Instr) (rest : List Byte) :
    decodeWith c (encodeWith c i ++ rest) = .ok (i, rest) := by
  simp only [encodeWith, List.cons_append, decodeWith, decodeOpcode_opcode hc, operandCount_opcode hc,
    takeOperands_operands]

/-- Settles O1: the opcode byte is found in its own row, and the format's operand bytes assemble to the instruction. -/
theorem decodeInvertsEncode : Obligations.DecodeInvertsEncode :=
  ⟨decodeWith_encodeWith machine_admitted, fun _ hc => decodeWith_encodeWith hc⟩

theorem eq_encodeWith_of_decodeWith {c : Config} (hc : c.Admitted) {bs rest : List Byte} {i : Instr}
    (h : decodeWith c bs = .ok (i, rest)) : bs = encodeWith c i ++ rest := by
  unfold decodeWith at h
  split at h
  · cases h
  · split at h
    · cases h
    · next op _ m hop =>
      obtain rfl := decodeOpcode_some hop
      rw [operandCount_opcode hc] at h
      obtain ⟨rfl, hoperands⟩ := takeOperands_ok h
      rw [hoperands, encodeWith, List.cons_append]

/-- Settles O2: a decoded opcode byte is its row's, and the bytes taken after it are the operands. -/
theorem decodedBytesAreTheEncoding : Obligations.DecodedBytesAreTheEncoding :=
  fun _ hc _ _ _ => eq_encodeWith_of_decodeWith hc

/-- Settles O3: each known word is an encoding, so the round trip decodes it; a byte in no row is refused. -/
theorem specWordsDecode : Obligations.SpecWordsDecode := by
  have hdecode (i : Instr) (rest : List Byte) : decode (encode i ++ rest) = .ok (i, rest) :=
    decodeWith_encodeWith machine_admitted i rest
  exact ⟨hdecode .halt [], hdecode (.loadImmediate 3 255) [], hdecode (.printRegister 5) [0x01], hdecode (.add 0 1) [],
    hdecode (.compare 0 255) [], hdecode (.push 7) [], hdecode (.call 1) [], hdecode .ret [0x00],
    hdecode (.jumpIfNotEqual 3) [], rfl, rfl⟩

end Sys2Proof.Machine
end

section
/-! PROOFS. One account of what an instruction can do on the machine, as two relations: `Completes s i t`, instruction `i`
completes from `s` in `t`; and `Raises s i r`, its handler raises `r`. `exec_next_cases` says that these are all the ends of
`exec`; the statements about instructions are case analyses of them. -/

namespace Sys2Proof.Machine

/-! ## The state after a byte is pushed -/

/-- SP decremented and a byte stored where it points then (43_stack.md R161, 44_control_flow.md R181). -/
def State.pushed (s : State) (v : Byte) : State :=
  { s.decrementSp with mem := s.mem.write s.decrementSp.sp.toNat v }

section Pushed
variable (s : State) (v : Byte)

@[simp] theorem pushed_reg (k : RegIndex) : (s.pushed v).reg k = s.decrementSp.reg k := rfl
@[simp] theorem pushed_pc : (s.pushed v).pc = s.pc := rfl
@[simp] theorem pushed_flags : (s.pushed v).flags = s.flags := rfl
@[simp] theorem pushed_rs : (s.pushed v).rs = s.rs := rfl
@[simp] theorem pushed_fr : (s.pushed v).fr = s.fr := rfl
@[simp] theorem pushed_out : (s.pushed v).out = s.out := rfl
theorem pushed_mem : (s.pushed v).mem = s.mem.write (s.sp - 1).toNat v := by
  rw [← sp_decrementSp]
  rfl

theorem storeAtSp_decrementSp : storeAtSp Config.machine v s.decrementSp = .ok (s.pushed v) := storeAtSp_machine v _

end Pushed

/-! ## The two relations -/

/-- Instruction `i` completes from `s` in `t`: its register operands name registers, a CALL's return address fits a byte, and
`t` has the writes of its rule and the next pc. -/
inductive Completes (s : State) : Instr → State → Prop
  | halt : Completes s .halt { s with rs := .halted }
  | loadImmediate {a imm : Byte} {i : RegIndex} (ha : Names a i) :
      Completes s (.loadImmediate a imm) (advance (opcodeMap .loadImmediate) (s.setReg i imm))
  | printRegister {a : Byte} {i : RegIndex} (ha : Names a i) :
      Completes s (.printRegister a) (advance (opcodeMap .printRegister) (s.emit (s.reg i)))
  | add {a b : Byte} {i j : RegIndex} (ha : Names a i) (hb : Names b j) :
      Completes s (.add a b)
        (advance (opcodeMap .add) (s.setReg i (wrapByte ((s.reg i).toNat + (s.reg j).toNat))))
  | multiply {a b : Byte} {i j : RegIndex} (ha : Names a i) (hb : Names b j) :
      Completes s (.multiply a b)
        (advance (opcodeMap .multiply) (s.setReg i (wrapByte ((s.reg i).toNat * (s.reg j).toNat))))
  | compare {a b : Byte} {i j : RegIndex} (ha : Names a i) (hb : Names b j) :
      Completes s (.compare a b)
        (advance (opcodeMap .compare) { s with flags := compareFlags (s.reg i) (s.reg j) })
  | push {a : Byte} {i : RegIndex} (ha : Names a i) :
      Completes s (.push a) (advance (opcodeMap .push) (s.pushed (s.decrementSp.reg i)))
  | pop {a : Byte} {i : RegIndex} (ha : Names a i) :
      Completes s (.pop a) (advance (opcodeMap .pop) (s.setReg i (s.mem.read s.sp.toNat)).incrementSp)
  | call {a : Byte} {i : RegIndex} (ha : Names a i) (hpc : s.pc + 2 ≤ 255) :
      Completes s (.call a) ((s.pushed (wrapByte (s.pc + 2))).jumpTo (s.decrementSp.reg i))
  | ret : Completes s .ret (s.incrementSp.jumpTo (s.mem.read s.sp.toNat))
  | jump {a : Byte} {i : RegIndex} (ha : Names a i) : Completes s (.jump a) (s.jumpTo (s.reg i))
  | jumpIfEqual {a : Byte} {i : RegIndex} (ha : Names a i) :
      Completes s (.jumpIfEqual a)
        { s with pc := if s.flags.equal = true then (s.reg i).toNat else s.pc + 2 }
  | jumpIfNotEqual {a : Byte} {i : RegIndex} (ha : Names a i) :
      Completes s (.jumpIfNotEqual a)
        { s with pc := if s.flags.equal = true then s.pc + 2 else (s.reg i).toNat }

/-- The first register operand outside 0..7. -/
abbrev firstIllegalOperand (i : Instr) : Option Byte := i.registerOperands.find? fun r => decide (7 < r.toNat)

/-- The handler of `i` raises `r` from `s` (60_exceptions.md R204, 4 and 5). -/
inductive Raises (s : State) : Instr → Raise → Prop
  | registerIndex {i : Instr} {v : Byte} (hv : firstIllegalOperand i = some v) :
      Raises s i ⟨.registerIndexFault, v.toNat⟩
  | returnAddress {a : Byte} (ha : a.toNat ≤ 7) (hpc : 255 < s.pc + 2) :
      Raises s (.call a) ⟨.memoryAddressFault, s.pc + 2⟩

/-! ## From every state one of them holds -/

theorem completes_or_raises_of_operand {i : Instr} {s : State} {a : Byte} {t : RegIndex → State}
    (hi : i.registerOperands = [a]) (h : ∀ k, Names a k → Completes s i (t k)) :
    (∃ t, Completes s i t) ∨ ∃ r, Raises s i r := by
  by_cases ha : a.toNat < 8
  · exact .inl ⟨_, h ⟨a.toNat, ha⟩ rfl⟩
  · exact .inr ⟨_, .registerIndex (v := a) (by simp [firstIllegalOperand, hi]; omega)⟩

theorem completes_or_raises_of_operands {i : Instr} {s : State} {a b : Byte} {t : RegIndex → RegIndex → State}
    (hi : i.registerOperands = [a, b]) (h : ∀ k l, Names a k → Names b l → Completes s i (t k l)) :
    (∃ t, Completes s i t) ∨ ∃ r, Raises s i r := by
  by_cases ha : a.toNat < 8
  · by_cases hb : b.toNat < 8
    · exact .inl ⟨_, h ⟨a.toNat, ha⟩ ⟨b.toNat, hb⟩ rfl rfl⟩
    · exact .inr ⟨_, .registerIndex (v := b) (by simp [firstIllegalOperand, hi]; omega)⟩
  · exact .inr ⟨_, .registerIndex (v := a) (by simp [firstIllegalOperand, hi]; omega)⟩

theorem completes_or_raises (i : Instr) (s : State) : (∃ t, Completes s i t) ∨ ∃ r, Raises s i r := by
  cases i with
  | halt => exact .inl ⟨_, .halt⟩
  | loadImmediate a imm => exact completes_or_raises_of_operand rfl fun _ => .loadImmediate
  | printRegister a => exact completes_or_raises_of_operand rfl fun _ => .printRegister
  | add a b => exact completes_or_raises_of_operands rfl fun _ _ => .add
  | multiply a b => exact completes_or_raises_of_operands rfl fun _ _ => .multiply
  | compare a b => exact completes_or_raises_of_operands rfl fun _ _ => .compare
  | push a => exact completes_or_raises_of_operand rfl fun _ => .push
  | pop a => exact completes_or_raises_of_operand rfl fun _ => .pop
  | call a =>
    by_cases hpc : s.pc + 2 ≤ 255
    · exact completes_or_raises_of_operand rfl fun _ ha => .call ha hpc
    · by_cases ha : a.toNat ≤ 7
      · exact .inr ⟨_, .returnAddress ha (by omega)⟩
      · exact .inr ⟨_, .registerIndex (v := a) (by simp [firstIllegalOperand, Instr.registerOperands]; omega)⟩
  | ret => exact .inl ⟨_, .ret⟩
  | jump a => exact completes_or_raises_of_operand rfl fun _ => .jump
  | jumpIfEqual a => exact completes_or_raises_of_operand rfl fun _ => .jumpIfEqual
  | jumpIfNotEqual a => exact completes_or_raises_of_operand rfl fun _ => .jumpIfNotEqual

/-! ## The handlers do what the relations say -/

theorem withIndex_named {a : Byte} {i : RegIndex} (ha : Names a i) (f : RegIndex → Attempt) :
    (regIdx Config.machine a >>= f) = f i := by
  rw [regIdx_of_lt _ ha, ok_bind]

theorem withIndexes_named {a b : Byte} {i j : RegIndex} (ha : Names a i) (hb : Names b j)
    (f : RegIndex → RegIndex → Attempt) :
    (regIdx Config.machine a >>= fun i => regIdx Config.machine b >>= f i) = f i j := by
  rw [withIndex_named ha, withIndex_named hb]

theorem popRule_named {a : Byte} {i : RegIndex} (s : State) (ha : Names a i) :
    popRule Config.machine a s = .ok (s.setReg i (s.mem.read s.sp.toNat)).incrementSp := by
  rw [popRule, withIndex_named ha, loadAtSp_machine, ok_bind]

theorem callRule_named {a : Byte} {i : RegIndex} {s : State} (ha : Names a i) (hpc : s.pc + 2 ≤ 255) :
    callRule Config.machine a s = .ok ((s.pushed (wrapByte (s.pc + 2))).jumpTo (s.decrementSp.reg i)) := by
  simp only [callRule, withIndex_named ha, Nat.not_lt.mpr hpc, if_false, storeAtSp_decrementSp, ok_bind, pushed_reg]

theorem execWith_of_ruleWith (i : Instr) {s : State} {x : Attempt} (h : ruleWith Config.machine i s = x) :
    execWith Config.machine i s = finishWith Config.machine i.mnemonic s x := by
  rw [execWith, h]

theorem execWith_of_completes {i : Instr} {s t : State} (h : Completes s i t) : execWith Config.machine i s = t := by
  cases h with
  | halt => rfl
  | loadImmediate ha => exact execWith_of_ruleWith (.loadImmediate _ _) (withIndex_named ha _)
  | printRegister ha => exact execWith_of_ruleWith (.printRegister _) (withIndex_named ha _)
  | add ha hb => exact execWith_of_ruleWith (.add _ _) (withIndexes_named ha hb _)
  | multiply ha hb => exact execWith_of_ruleWith (.multiply _ _) (withIndexes_named ha hb _)
  | compare ha hb => exact execWith_of_ruleWith (.compare _ _) (withIndexes_named ha hb _)
  | push ha => exact execWith_of_ruleWith (.push _) ((withIndex_named ha _).trans (storeAtSp_decrementSp s _))
  | pop ha => exact execWith_of_ruleWith (.pop _) (popRule_named s ha)
  | call ha hpc => exact execWith_of_ruleWith (.call _) (callRule_named ha hpc)
  | ret => exact execWith_of_ruleWith .ret (retRule_machine s)
  | jump ha => exact execWith_of_ruleWith (.jump _) (withIndex_named ha _)
  | jumpIfEqual ha =>
    refine (execWith_of_ruleWith (.jumpIfEqual _) (withIndex_named ha _)).trans ?_
    cases s.flags.equal <;> rfl
  | jumpIfNotEqual ha =>
    refine (execWith_of_ruleWith (.jumpIfNotEqual _) (withIndex_named ha _)).trans ?_
    cases s.flags.equal <;> rfl

/-- RegIdx raises an illegal operand whatever the rule would do with the register. -/
theorem withIndex_illegal {a v : Byte} (hv : [a].find? (fun r => decide (7 < r.toNat)) = some v)
    (f : RegIndex → Attempt) : (regIdx Config.machine a >>= f) = .error ⟨.registerIndexFault, v.toNat⟩ := by
  rcases withIndex_cases a f with ⟨i, ha, -⟩ | ⟨ha, e⟩
  · simp [show ¬7 < a.toNat by omega] at hv
  · rw [List.find?_cons_of_pos (by simpa using ha)] at hv
    rwa [← Option.some.inj hv]

theorem withIndexes_illegal {a b v : Byte} (hv : [a, b].find? (fun r => decide (7 < r.toNat)) = some v)
    (f : RegIndex → RegIndex → Attempt) :
    (regIdx Config.machine a >>= fun i => regIdx Config.machine b >>= f i) = .error ⟨.registerIndexFault, v.toNat⟩ := by
  rcases withIndexes_cases a b f with ⟨i, j, ha, hb, -⟩ | ⟨ha, e⟩ | ⟨ha, hb, e⟩
  · simp [show ¬7 < a.toNat by omega, show ¬7 < b.toNat by omega] at hv
  · rw [List.find?_cons_of_pos (by simpa using ha)] at hv
    rwa [← Option.some.inj hv]
  · simp [show ¬7 < a.toNat by omega, hb] at hv
    rwa [← hv]

theorem ruleWith_of_raises {i : Instr} {s : State} {r : Raise} (h : Raises s i r) :
    ruleWith Config.machine i s = .error r := by
  cases h with
  | returnAddress ha hpc =>
    exact (withIndex_named (i := ⟨_, Nat.lt_succ_of_le ha⟩) rfl _).trans (if_pos hpc)
  | registerIndex hv =>
    cases i with
    | halt | ret => cases hv
    | loadImmediate a _ | printRegister a | push a | pop a | call a | jump a | jumpIfEqual a | jumpIfNotEqual a =>
      exact withIndex_illegal hv _
    | add a b | multiply a b | compare a b => exact withIndexes_illegal hv _

/-! ## The ends of an instruction -/

theorem exec_of_completes {i : Instr} {s t : State} (h : Completes s i t) : exec i s = .next t :=
  (exec_next_iff i s t).mpr (execWith_of_completes h).symm

theorem eq_of_completes {i : Instr} {s t t' : State} (h : Completes s i t) (hexec : exec i s = .next t') : t = t' :=
  Host.Outcome.next.inj ((exec_of_completes h).symm.trans hexec)

theorem exec_of_raises {i : Instr} {s : State} {r : Raise} (h : Raises s i r) : exec i s = .next (takeFault r s) :=
  exec_of_ruleWith_error (ruleWith_of_raises h)

/-- All that an instruction can do on the machine. -/
theorem exec_next_cases {i : Instr} {s t : State} (h : exec i s = .next t) :
    Completes s i t ∨ ∃ r, Raises s i r ∧ t = takeFault r s := by
  rcases completes_or_raises i s with ⟨t', ht'⟩ | ⟨r, hr⟩
  · obtain rfl := eq_of_completes ht' h
    exact .inl ht'
  · exact .inr ⟨r, hr, Host.Outcome.next.inj (h.symm.trans (exec_of_raises hr))⟩

end Sys2Proof.Machine
end

section
/-! PROOFS. What a completing instruction leaves of each piece of state, whatever the instruction: one case analysis for pc,
RS, FR, memory, the flags and OUT. -/

namespace Sys2Proof.Machine

theorem advance_opcodeMap (m : Mnemonic) (s : State) :
    advance (opcodeMap m) s = { s with pc := s.pc + 1 + m.format.operandBytes } := by
  rw [advance, operandCount_opcodeMap]

theorem advance_opcodeMap_pc (m : Mnemonic) (s : State) :
    (advance (opcodeMap m) s).pc = s.pc + 1 + m.format.operandBytes := by
  rw [advance_opcodeMap]

/-- The instructions whose rule alone writes pc (40_engine.md R107). -/
abbrev controlFlowMnemonics : List Mnemonic := [.call, .ret, .jump, .jumpIfEqual, .jumpIfNotEqual]

section
variable {s t : State} {i : Instr} (h : Completes s i t)
include h

/-- pc advances over the instruction, HALT keeps it, control flow can set it to an 8-bit target. -/
theorem completes_pc :
    t.pc = s.pc + 1 + i.mnemonic.format.operandBytes ∨ (i = .halt ∧ t.pc = s.pc) ∨
      (i.mnemonic ∈ controlFlowMnemonics ∧ ∃ v : Byte, t.pc = v.toNat) := by
  cases h with
  | halt => exact .inr (.inl ⟨rfl, rfl⟩)
  | loadImmediate | printRegister | add | multiply | compare | push | pop => exact .inl (advance_opcodeMap_pc _ _)
  | call | ret | jump => exact .inr (.inr ⟨by simp [Instr.mnemonic], _, rfl⟩)
  | jumpIfEqual =>
    by_cases he : s.flags.equal = true
    · exact .inr (.inr ⟨by simp [Instr.mnemonic], _, if_pos he⟩)
    · exact .inl (if_neg he)
  | jumpIfNotEqual =>
    by_cases he : s.flags.equal = true
    · exact .inl (if_pos he)
    · exact .inr (.inr ⟨by simp [Instr.mnemonic], _, if_neg he⟩)

theorem completes_fr : t.fr = s.fr := by cases h <;> rfl

theorem completes_rs : t.rs = if i = .halt then .halted else s.rs := by cases h <;> rfl

/-- PUSH and CALL write the byte at the decremented SP; no other instruction writes memory. -/
theorem completes_mem :
    t.mem = s.mem ∨ ((∃ a, i = .push a ∨ i = .call a) ∧ ∃ v, t.mem = s.mem.write (s.sp - 1).toNat v) := by
  cases h with
  | push => exact .inr ⟨⟨_, .inl rfl⟩, _, pushed_mem _ _⟩
  | call => exact .inr ⟨⟨_, .inr rfl⟩, _, pushed_mem _ _⟩
  | _ => exact .inl rfl

theorem completes_flags : t.flags = s.flags ∨ ∃ u v, t.flags = compareFlags u v := by
  cases h with
  | compare => exact .inr ⟨_, _, rfl⟩
  | _ => exact .inl rfl

theorem completes_out :
    t.out = s.out ∨ ∃ (a : Byte) (k : RegIndex), i = .printRegister a ∧ Names a k ∧ t.out = s.out ++ [s.reg k] := by
  cases h with
  | printRegister ha => exact .inr ⟨_, _, rfl, ha, rfl⟩
  | _ => exact .inl rfl

theorem completes_names {r : Byte} (hr : r ∈ i.registerOperands) : ∃ k : RegIndex, Names r k := by
  cases h with
  | halt | ret => cases hr
  | loadImmediate ha | printRegister ha | push ha | pop ha | call ha | jump ha | jumpIfEqual ha | jumpIfNotEqual ha =>
    exact ⟨_, List.mem_singleton.mp hr ▸ ha⟩
  | add ha hb | multiply ha hb | compare ha hb =>
    obtain rfl | hr := List.mem_cons.mp hr
    · exact ⟨_, ha⟩
    · exact ⟨_, List.mem_singleton.mp hr ▸ hb⟩

end

end Sys2Proof.Machine
end

section
/-! PROOFS. The invariant of the machine (Safety.lean): it holds after reset and after a load, and every step keeps it. -/

namespace Sys2Proof.Machine

/-! ## Flags (10_state.md R28) -/

theorem compareFlags_exactlyOne (u v : Byte) : (compareFlags u v).exactlyOne := by
  simp only [Flags.exactlyOne, Flags.exclusive, compareFlags, decide_eq_true_eq]
  omega

/-! ## The step by what the fetch answers -/

/-- All that a step can do: RS is Running, and the fetch raises or an instruction is executed. -/
theorem step_next_cases {s t : State} (h : step s = .next t) :
    s.rs = .running ∧
      ((∃ r, fetchInstr Config.machine s = .error r ∧ t = takeFault r s) ∨
        ∃ i, fetchInstr Config.machine s = .ok i ∧ exec i s = .next t) := by
  have hrs : s.rs = .running := by
    by_contra hrs
    exact step_ne_next_of_not_running hrs t h
  refine ⟨hrs, ?_⟩
  cases hfetch : fetchInstr Config.machine s with
  | error r => exact .inl ⟨r, rfl, Host.Outcome.next.inj (h.symm.trans (step_of_fetchInstr_error hrs hfetch))⟩
  | ok i => exact .inr ⟨i, rfl, (step_of_fetchInstr_ok hrs hfetch).symm.trans h⟩

/-- A fetched instruction lies inside memory. -/
theorem fetchInstr_ok_inside {s : State} {i : Instr} (hfetch : fetchInstr Config.machine s = .ok i) :
    s.pc + i.mnemonic.format.operandBytes < 256 := by
  rcases fetchInstr_cases s with ⟨-, h⟩ | ⟨-, -, h⟩ | ⟨m, -, -, ⟨hinside, h⟩ | ⟨k, -, -, -, h⟩⟩ <;>
    cases hfetch.symm.trans h
  rwa [assemble_mnemonic]

/-! ## Fault records (60_exceptions.md R200, R201) -/

theorem wrapByte_toNat (v : Byte) : wrapByte v.toNat = v := by simp [wrapByte]

/-- The fetch raises an unknown opcode byte or the address 256, where pc is at most 256. -/
theorem fetchInstr_error_possible {s : State} {r : Raise} (hpc : s.pc ≤ 256)
    (hfetch : fetchInstr Config.machine s = .error r) : FaultRecord.possible ⟨r.cause, s.pc, r.info⟩ := by
  rcases fetchInstr_cases s with ⟨hge, h⟩ | ⟨-, hunknown, h⟩ | ⟨m, -, -, ⟨-, h⟩ | ⟨k, -, -, hk, h⟩⟩ <;>
    cases hfetch.symm.trans h
  · exact Nat.le_antisymm hpc hge
  · exact ⟨Nat.le_of_lt_succ (BitVec.isLt _), by rw [wrapByte_toNat]; exact decodeOpcode_eq_none hunknown⟩
  · exact hk

/-- A handler raises an operand byte 8..255, or 256 as the return address of a CALL inside memory. -/
theorem raises_possible {s : State} {i : Instr} {r : Raise} (h : Raises s i r)
    (hinside : s.pc + i.mnemonic.format.operandBytes < 256) : FaultRecord.possible ⟨r.cause, s.pc, r.info⟩ := by
  cases h with
  | registerIndex hv => exact ⟨Nat.succ_le_of_lt (by simpa using List.find?_some hv), Nat.le_of_lt_succ (BitVec.isLt _)⟩
  | returnAddress ha hpc =>
    have hcall : s.pc + 1 < 256 := hinside
    exact show s.pc + 2 = 256 by omega

theorem takeFault_inv {s : State} {r : Raise} (hs : s.Inv) (hr : FaultRecord.possible ⟨r.cause, s.pc, r.info⟩) :
    (takeFault r s).Inv where
  mem_wf := hs.mem_wf
  pc_le := hs.pc_le
  flags_exclusive := hs.flags_exclusive
  fr_valid := by simp
  fr_possible := by
    rintro _ ⟨⟩
    exact ⟨rfl, hr⟩

/-- A completing instruction fetched from inside memory keeps the invariant of a running machine. -/
theorem completes_inv {s t : State} {i : Instr} (hs : s.Inv) (hrs : s.rs = .running) (h : Completes s i t)
    (hinside : s.pc + i.mnemonic.format.operandBytes < 256) : t.Inv := by
  have hfr : t.fr = none := by
    rw [completes_fr h, ← Option.not_isSome_iff_eq_none, ← hs.fr_valid]
    simp [hrs]
  refine ⟨?_, ?_, ?_, ?_, by simp [hfr]⟩
  · rcases completes_mem h with hmem | ⟨-, v, hmem⟩ <;> rw [hmem]
    · exact hs.mem_wf
    · exact wf_write _ _ _ _ hs.mem_wf (BitVec.isLt _)
  · show t.pc ≤ 256
    rcases completes_pc h with hpc | ⟨-, hpc⟩ | ⟨-, v, hpc⟩
    · omega
    · omega
    · exact hpc ▸ v.isLt.le
  · rcases completes_flags h with hf | ⟨u, v, hf⟩ <;> rw [hf]
    · exact hs.flags_exclusive
    · exact (compareFlags_exactlyOne u v).1
  · rw [completes_rs h, hfr]
    split <;> simp [hrs]

/-- Settles O51: a fault of the fetch or of a handler records a possible cause, and a completing instruction writes memory
inside MEM_SIZE, moves pc past its own last byte at most, and sets exactly one flag or none anew. -/
theorem stepKeepsInvariant : Obligations.StepKeepsInvariant := by
  intro s t hs hstep
  obtain ⟨hrs, ⟨r, hfetch, rfl⟩ | ⟨i, hfetch, hexec⟩⟩ := step_next_cases hstep
  · exact takeFault_inv hs (fetchInstr_error_possible hs.pc_le hfetch)
  · have hinside := fetchInstr_ok_inside hfetch
    rcases exec_next_cases hexec with h | ⟨r, hr, rfl⟩
    · exact completes_inv hs hrs h hinside
    · exact takeFault_inv hs (raises_possible hr hinside)

end Sys2Proof.Machine
end

section
/-! PROOFS. The fetch and the step (40_engine.md): a step runs the instruction whose bytes stand at pc, or takes the first
fault of 60_exceptions.md R204; where it leaves pc, when it halts, and that it writes memory for PUSH and CALL alone. -/

namespace Sys2Proof.Machine

/-! ## The bytes at pc -/

theorem getElem?_bytesFrom (size : Nat) (m : Memory) (n a k : Nat) :
    (bytesFrom size m a n)[k]? = if k < n ∧ a + k < size then some (m.read (a + k)) else none := by
  induction n generalizing a k with
  | zero => simp [bytesFrom]
  | succ n ih =>
    by_cases ha : a < size
    · cases k with
      | zero => simp [bytesFrom, ha]
      | succ k => simp [bytesFrom, ha, ih, Nat.add_right_comm a 1 k, Nat.add_assoc]
    · simp [bytesFrom, ha]
      omega

theorem length_encode (i : Instr) : (encode i).length = 1 + i.mnemonic.format.operandBytes := by
  cases i <;> rfl

/-- The encoding of `i` stands at pc, inside memory. -/
def EncodedAtPc (i : Instr) (s : State) : Prop :=
  ∀ (k : Nat) (hk : k < (encode i).length), s.pc + k < 256 ∧ s.mem.read (s.pc + k) = (encode i)[k]

theorem encodedAtPc_of_decode {s : State} {i : Instr} {rest : List Byte}
    (h : decode (s.bytesAtPc Config.machine) = .ok (i, rest)) : EncodedAtPc i s := by
  intro k hk
  have hbytes : s.bytesAtPc Config.machine = encode i ++ rest := eq_encodeWith_of_decodeWith machine_admitted h
  have hbyte : (s.bytesAtPc Config.machine)[k]? = some (encode i)[k] := by
    rw [hbytes, List.getElem?_append_left hk, List.getElem?_eq_getElem hk]
  rw [State.bytesAtPc, getElem?_bytesFrom] at hbyte
  split at hbyte
  · next hin => exact ⟨hin.2, Option.some.inj hbyte⟩
  · cases hbyte

theorem assemble_of_encodedAtPc {s : State} {i : Instr} (h : EncodedAtPc i s) :
    assemble i.mnemonic (s.mem.read (s.pc + 1)) (s.mem.read (s.pc + 2)) = i := by
  cases i with
  | halt | ret => rfl
  | printRegister | push | pop | call | jump | jumpIfEqual | jumpIfNotEqual =>
    rw [(h 1 (by simp [length_encode, Instr.mnemonic, Mnemonic.format, Format.operandBytes])).2]
    rfl
  | loadImmediate | add | multiply | compare =>
    rw [(h 1 (by simp [length_encode, Instr.mnemonic, Mnemonic.format, Format.operandBytes])).2,
      (h 2 (by simp [length_encode, Instr.mnemonic, Mnemonic.format, Format.operandBytes])).2]
    rfl

/-- The fetch reads the same bytes as the decoder, as many as the opcode byte says. -/
theorem fetchInstr_of_encodedAtPc {s : State} {i : Instr} (h : EncodedAtPc i s) :
    fetchInstr Config.machine s = .ok i := by
  obtain ⟨hpc, hop⟩ : s.pc < 256 ∧ s.mem.read s.pc = opcodeMap i.mnemonic := h 0 (by simp [length_encode])
  rcases fetchInstr_cases s with ⟨hge, -⟩ | ⟨-, hunknown, -⟩ | ⟨m, -, hm, hfetch⟩
  · omega
  · exact absurd hop.symm (hunknown i.mnemonic)
  · obtain rfl : m = i.mnemonic := opcode_injective machine_admitted (hm.trans hop)
    rcases hfetch with ⟨-, hfetch⟩ | ⟨k, -, hk, hend, -⟩
    · rw [hfetch, assemble_of_encodedAtPc h]
    · have hin := (h k (by rw [length_encode]; omega)).1
      omega

/-- Settles O5: the bytes that decode are an encoding at pc, and the fetch answers that instruction. -/
theorem stepRunsDecodedInstruction : Obligations.StepRunsDecodedInstruction :=
  fun _ _ _ hrs h => step_of_fetchInstr_ok hrs (fetchInstr_of_encodedAtPc (encodedAtPc_of_decode h))

/-! ## Faults of the fetch -/

/-- Settles O6 (40_engine.md R101): the opcode fetch is the first access of a step. -/
theorem opcodeFetchPastEndFaults : Obligations.OpcodeFetchPastEndFaults :=
  fun _ hrs hpc => step_of_fetchInstr_error hrs (fetchInstr_past_end hpc)

theorem fetchInstr_of_opcode {s : State} {m : Mnemonic} (hpc : s.pc < 256) (hop : s.mem.read s.pc = opcodeMap m) :
    fetchInstr Config.machine s = fetchOperands Config.machine m m.format.operandBytes s := by
  rw [fetchInstr_known hpc (hop ▸ decodeOpcode_opcodeMap m), hop, operandCount_opcodeMap]

/-- Settles O8 (40_engine.md R103): the operand byte at 256 is the one that the operand fetch raises. -/
theorem operandFetchPastEndFaults : Obligations.OperandFetchPastEndFaults := by
  intro s m k hrs hop hk hle hend
  have hpc : s.pc < 256 := by omega
  rcases fetchOperands_cases m s hpc with ⟨hinside, -⟩ | ⟨k', -, -, hend', hfetch⟩
  · omega
  · obtain rfl : k' = k := by omega
    exact step_of_fetchInstr_error hrs ((fetchInstr_of_opcode hpc hop).trans hfetch)

/-! ## Progress -/

/-- Settles O10: a fault of the fetch is taken, and `exec` always answers a next state. -/
theorem runningAlwaysSteps : Obligations.RunningAlwaysSteps := by
  intro s hrs
  cases hfetch : fetchInstr Config.machine s with
  | error r => exact ⟨_, step_of_fetchInstr_error hrs hfetch⟩
  | ok i => exact ⟨_, (step_of_fetchInstr_ok hrs hfetch).trans (exec_eq_execWith i s)⟩

/-! ## The program counter after a step -/

/-- Settles O11: a fault and HALT keep pc; a completing instruction fetched from inside memory moves it as its class says. -/
theorem stepPcSuccessors : Obligations.StepPcSuccessors := by
  intro s t hrs hstep
  obtain ⟨-, ⟨r, -, rfl⟩ | ⟨i, hfetch, hexec⟩⟩ := step_next_cases hstep
  · exact .inl ⟨by simp, rfl⟩
  rcases exec_next_cases hexec with h | ⟨r, -, rfl⟩
  · have hop := opcodeMap_of_fetchInstr_ok hfetch
    have hin : s.pc < 256 := by
      have := fetchInstr_ok_inside hfetch
      omega
    by_cases hi : i = .halt
    · subst hi
      cases h
      exact .inl ⟨by simp, rfl⟩
    · have ht : t.rs = .running := by rw [completes_rs h, if_neg hi, hrs]
      rw [← hop, ← operandCount_eq_div, operandCount_opcodeMap]
      refine .inr ⟨ht, hin, (completes_pc h).imp_right ?_⟩
      rintro (⟨rfl, -⟩ | ⟨hmem, htarget⟩)
      · exact absurd rfl hi
      · exact ⟨List.mem_map_of_mem (f := opcodeMap) hmem, htarget⟩
  · exact .inl ⟨by simp, rfl⟩

/-! ## Halting -/

theorem exec_halted_iff {i : Instr} {s t : State} (hrs : s.rs = .running) (h : exec i s = .next t) :
    t.rs = .halted ↔ i = .halt := by
  rcases exec_next_cases h with h | ⟨r, hr, rfl⟩
  · by_cases hi : i = .halt <;> simp [completes_rs h, hi, hrs]
  · cases hr with
    | returnAddress => simp
    | registerIndex hv =>
      suffices i ≠ .halt by simpa
      rintro rfl
      cases hv

theorem fetchInstr_halt {s : State} (hpc : s.pc < 256) (hop : s.mem.read s.pc = 0x01) :
    fetchInstr Config.machine s = .ok .halt :=
  (fetchInstr_of_opcode (m := .halt) hpc hop).trans rfl

/-- Settles O43: a step that ends in Halted executed HALT, and HALT is fetched exactly at its opcode byte. -/
theorem haltedExactlyByHalt : Obligations.HaltedExactlyByHalt := by
  intro s t hstep
  obtain ⟨hrs, ⟨r, hfetch, rfl⟩ | ⟨i, hfetch, hexec⟩⟩ := step_next_cases hstep
  · refine iff_of_false (by simp) fun ⟨hpc, hop⟩ => ?_
    cases hfetch.symm.trans (fetchInstr_halt hpc hop)
  · rw [exec_halted_iff hrs hexec]
    constructor
    · rintro rfl
      have hpc := fetchInstr_ok_inside hfetch
      exact ⟨hpc, (opcodeMap_of_fetchInstr_ok hfetch).symm⟩
    · rintro ⟨hpc, hop⟩
      exact Except.ok.inj (hfetch.symm.trans (fetchInstr_halt hpc hop))

/-! ## Memory -/

theorem exec_mem {i : Instr} {s t : State} (h : exec i s = .next t) (hi : ∀ a, i ≠ .push a ∧ i ≠ .call a) :
    t.mem = s.mem := by
  rcases exec_next_cases h with h | ⟨r, -, rfl⟩
  · refine (completes_mem h).resolve_right ?_
    rintro ⟨⟨a, rfl | rfl⟩, -⟩
    · exact (hi a).1 rfl
    · exact (hi a).2 rfl
  · rfl

/-- Settles O40: of the completing instructions PUSH and CALL alone write memory, a fetched one has its opcode at pc, and a
fault writes none. -/
theorem onlyPushAndCallWriteMemory : Obligations.OnlyPushAndCallWriteMemory := by
  refine ⟨fun i s t => exec_mem, fun s t hstep hop => ?_, fun s t r hfetch hstep => ?_⟩
  · obtain ⟨-, ⟨r, -, rfl⟩ | ⟨i, hfetch, hexec⟩⟩ := step_next_cases hstep
    · rfl
    · refine exec_mem hexec fun a => ?_
      rw [← opcodeMap_of_fetchInstr_ok hfetch] at hop
      constructor <;> rintro rfl <;> simp [Instr.mnemonic, opcodeMap] at hop
  · obtain ⟨hrs, -⟩ := step_next_cases hstep
    obtain rfl := Host.Outcome.next.inj (hstep.symm.trans (step_of_fetchInstr_error hrs hfetch))
    rfl

end Sys2Proof.Machine
end

section
/-! PROOFS. The priority of faults (60_exceptions.md R204): the declarative chain `State.firstFault` against the step. -/

namespace Sys2Proof.Machine

theorem firstFault_past_end {s : State} (hpc : 256 ≤ s.pc) : s.firstFault = some (.memoryAddressFault, s.pc) := if_pos hpc

/-- The 13 opcode bytes the chain writes out are those of OPCODE_MAP. -/
theorem mem_opcodes {op : Byte} :
    op ∈ ([0x01, 0x82, 0x47, 0xA0, 0xA2, 0xA7, 0x45, 0x46, 0x50, 0x11, 0x54, 0x55, 0x56] : List Byte) ↔
      ∃ m, opcodeMap m = op := by
  change op ∈ Mnemonic.all.map opcodeMap ↔ _
  simp [Mnemonic_mem_all]

theorem firstFault_unknown {s : State} (hpc : s.pc < 256) (hop : ∀ m, opcodeMap m ≠ s.mem.read s.pc) :
    s.firstFault = some (.decodeFault, (s.mem.read s.pc).toNat) := by
  rw [State.firstFault, if_neg (Nat.not_le.mpr hpc), if_pos (mem_opcodes.not.mpr (not_exists.mpr hop))]

/-- The chain's tests past the fetch: an illegal register operand, then a return address that fits no byte. -/
def handlerFault (i : Instr) (s : State) : Option (Cause × Nat) :=
  (firstIllegalOperand i).elim
    (if i.mnemonic = .call ∧ 255 < s.pc + 2 then some (.memoryAddressFault, s.pc + 2) else none)
    fun v => some (.registerIndexFault, v.toNat)

section Known
variable {s : State} {m : Mnemonic} (hop : opcodeMap m = s.mem.read s.pc)
include hop

theorem firstFault_operand_past_end {k : Nat} (hk : 1 ≤ k) (hle : k ≤ m.format.operandBytes) (hend : s.pc + k = 256) :
    s.firstFault = some (.memoryAddressFault, s.pc + k) := by
  have hn := operandBytes_le_two m
  simp only [State.firstFault, if_neg (show ¬256 ≤ s.pc by omega), ← operandCount_eq_div, ← hop, operandCount_opcodeMap,
    mem_opcodes, exists_apply_eq_apply, not_true, if_false]
  obtain rfl | rfl : k = 1 ∨ k = 2 := by omega
  · rw [if_pos (by omega)]
  · rw [if_neg (by omega), if_pos (by omega)]

/-- With all its operand bytes in memory, the first fault of an instruction is its handler's. -/
theorem firstFault_inside (hin : s.pc + m.format.operandBytes < 256) :
    s.firstFault = handlerFault (assemble m (s.mem.read (s.pc + 1)) (s.mem.read (s.pc + 2))) s := by
  simp only [State.firstFault, if_neg (show ¬256 ≤ s.pc by omega), ← operandCount_eq_div, ← hop, operandCount_opcodeMap,
    mem_opcodes, exists_apply_eq_apply, not_true, if_false, handlerFault, firstIllegalOperand,
    assemble_mnemonic]
  rw [if_neg (by omega), if_neg (by omega)]
  generalize s.mem.read (s.pc + 1) = a, s.mem.read (s.pc + 2) = b
  clear hop hin
  cases m with
  | halt | ret => simp [assemble, Instr.registerOperands, opcodeMap, Mnemonic.format, Format.operandBytes]
  | add | multiply | compare =>
    by_cases ha : 7 < a.toNat <;> by_cases hb : 7 < b.toNat <;>
      simp [ha, hb, assemble, Instr.registerOperands, opcodeMap, Mnemonic.format, Format.operandBytes]
  | loadImmediate | printRegister | push | pop | call | jump | jumpIfEqual | jumpIfNotEqual =>
    by_cases ha : 7 < a.toNat <;>
      simp [ha, assemble, Instr.registerOperands, opcodeMap, Mnemonic.format, Format.operandBytes]

end Known

/-! ## Against the handlers -/

theorem firstIllegalOperand_of_completes {i : Instr} {s t : State} (h : Completes s i t) :
    firstIllegalOperand i = none := by
  refine List.find?_eq_none.mpr fun r hr => ?_
  obtain ⟨k, hk⟩ := completes_names h hr
  simp only [hk, decide_eq_true_eq]
  omega

theorem handlerFault_of_completes {i : Instr} {s t : State} (h : Completes s i t) : handlerFault i s = none := by
  have hcall : ¬(i.mnemonic = .call ∧ 255 < s.pc + 2) := by
    rintro ⟨hi, hpc⟩
    cases h with
    | call _ hle => omega
    | _ => cases hi
  rw [handlerFault, firstIllegalOperand_of_completes h, Option.elim_none, if_neg hcall]

theorem handlerFault_of_raises {i : Instr} {s : State} {r : Raise} (h : Raises s i r) :
    handlerFault i s = some (r.cause, r.info) := by
  cases h with
  | registerIndex hv => rw [handlerFault, hv, Option.elim_some]
  | returnAddress ha hpc =>
    simp [handlerFault, firstIllegalOperand, Instr.registerOperands, Instr.mnemonic, Nat.not_lt.mpr ha, hpc]

/-- Settles O12: each branch of the fetch meets the same test in the chain; past the fetch, the chain tests what the handler
raises. -/
theorem firstFaultDecidesTheStep : Obligations.FirstFaultDecidesTheStep := by
  intro s hrs
  rcases fetchInstr_cases s with
    ⟨hpc, hfetch⟩ | ⟨hpc, hop, hfetch⟩ | ⟨m, hpc, hop, ⟨hin, hfetch⟩ | ⟨k, hk, hle, hend, hfetch⟩⟩
  · rw [firstFault_past_end hpc]
    exact step_of_fetchInstr_error hrs hfetch
  · rw [firstFault_unknown hpc hop]
    exact step_of_fetchInstr_error hrs hfetch
  · rw [firstFault_inside hop hin, step_of_fetchInstr_ok hrs hfetch]
    generalize assemble m _ _ = i
    rcases completes_or_raises i s with ⟨t, h⟩ | ⟨r, h⟩
    · rw [handlerFault_of_completes h]
      refine ⟨t, exec_of_completes h, ?_, completes_fr h⟩
      rw [completes_rs h]
      split <;> simp [hrs]
    · rw [handlerFault_of_raises h]
      exact exec_of_raises h
  · rw [firstFault_operand_past_end hop hk hle hend]
    exact step_of_fetchInstr_error hrs hfetch

end Sys2Proof.Machine
end

section
/-! PROOFS. Faults of the handlers (60_exceptions.md, sections 1 and 2): RegIdx and the machine's register operands, the causes
a configuration can raise, and the stack address checks of a small memory. -/

namespace Sys2Proof.Machine

/-! ## RegIdx and register operands (40_engine.md R104) -/

/-- Settles O17: the three lemmas about `regIdx`, one for each clause. -/
theorem regIdxByPolicy : Obligations.RegIdxByPolicy :=
  fun c _ => ⟨fun _ => regIdx_of_lt c, fun hv hc => regIdx_fault hc hv, fun _ hc => regIdx_mask3 hc⟩

/-- Settles O14: the handler raises its first illegal register operand. -/
theorem firstIllegalRegisterOperandFaults : Obligations.FirstIllegalRegisterOperandFaults :=
  fun _ _ _ hv => exec_of_raises (.registerIndex hv)

/-- Settles O15: a legal register passes CALL's first check, and the return address fails its second. -/
theorem callWithUnstorableReturnAddressFaults : Obligations.CallWithUnstorableReturnAddressFaults :=
  fun _ _ _ ha hpc => exec_of_raises (.returnAddress (by omega) hpc)

/-! ## Which causes a configuration can raise -/

/-- The causes a handler can raise: a memory address, and a register index under the policy `fault` alone. -/
def HandlerCause (c : Config) (cause : Cause) : Prop :=
  cause = .memoryAddressFault ∨ (cause = .registerIndexFault ∧ c.regIndexPolicy = .fault)

theorem regIdx_error {c : Config} {v : Byte} {r : Raise} (h : regIdx c v = .error r) : HandlerCause c r.cause := by
  unfold regIdx at h
  split at h
  · cases h
  · split at h
    · next hc =>
      cases h
      exact .inr ⟨rfl, hc⟩
    · cases h

theorem readMem_error {c : Config} {a : Nat} {s : State} {r : Raise} (h : readMem c a s = .error r) :
    r = ⟨.memoryAddressFault, a⟩ := by
  by_cases ha : a < c.memSize
  · cases (readMem_of_lt ha).symm.trans h
  · exact Except.error.inj (h.symm.trans (readMem_of_ge (Nat.not_lt.mp ha)))

/-- A rule that completes keeps FR, and one that raises has a cause of a handler. -/
def RecordLaw (c : Config) (s : State) : Attempt → Prop
  | .ok t => t.fr = s.fr
  | .error r => HandlerCause c r.cause

theorem recordLaw_bind {α : Type} {c : Config} {s : State} {x : Except Raise α} {f : α → Attempt}
    (hx : ∀ r, x = .error r → HandlerCause c r.cause) (hf : ∀ a, x = .ok a → RecordLaw c s (f a)) :
    RecordLaw c s (x >>= f) := by
  cases x with
  | ok a => exact hf a rfl
  | error r => exact hx r rfl

theorem recordLaw_withIndex {c : Config} {s : State} {a : Byte} {f : RegIndex → Attempt}
    (hf : ∀ i, RecordLaw c s (f i)) : RecordLaw c s (regIdx c a >>= f) :=
  recordLaw_bind (fun _ => regIdx_error) fun i _ => hf i

theorem recordLaw_loadAtSp {c : Config} {s : State} {f : Byte → Attempt} (hf : ∀ v, RecordLaw c s (f v)) :
    RecordLaw c s (loadAtSp c s >>= f) :=
  recordLaw_bind (fun _ h => .inl (by rw [readMem_error h])) fun v _ => hf v

theorem storeAtSp_error {c : Config} {v : Byte} {s : State} {r : Raise} (h : storeAtSp c v s = .error r) :
    HandlerCause c r.cause := by
  obtain ⟨-, rfl⟩ := writeMem_error h
  exact .inl rfl

theorem storeAtSp_fr {c : Config} {v : Byte} {s t : State} (h : storeAtSp c v s = .ok t) : t.fr = s.fr := by
  obtain ⟨-, rfl⟩ := writeMem_ok h
  rfl

theorem recordLaw_storeAtSp (c : Config) (v : Byte) (s : State) : RecordLaw c s (storeAtSp c v s) := by
  cases h : storeAtSp c v s with
  | ok t => exact storeAtSp_fr h
  | error r => exact storeAtSp_error h

theorem ruleWith_recordLaw (c : Config) (i : Instr) (s : State) : RecordLaw c s (ruleWith c i s) := by
  cases i with
  | halt => exact rfl
  | loadImmediate a imm => exact recordLaw_withIndex fun _ => rfl
  | printRegister a => exact recordLaw_withIndex fun _ => rfl
  | add a b => exact recordLaw_withIndex fun _ => recordLaw_withIndex fun _ => rfl
  | multiply a b => exact recordLaw_withIndex fun _ => recordLaw_withIndex fun _ => rfl
  | compare a b => exact recordLaw_withIndex fun _ => recordLaw_withIndex fun _ => rfl
  | push a => exact recordLaw_withIndex fun k => recordLaw_storeAtSp c (s.decrementSp.reg k) s.decrementSp
  | pop a => exact recordLaw_withIndex fun _ => recordLaw_loadAtSp fun _ => rfl
  | call a =>
    refine recordLaw_withIndex fun _ => ?_
    dsimp only
    split
    · exact .inl rfl
    · exact recordLaw_bind (fun _ => storeAtSp_error) fun _ => storeAtSp_fr
  | ret => exact recordLaw_loadAtSp fun _ => rfl
  | jump a => exact recordLaw_withIndex fun _ => rfl
  | jumpIfEqual a => exact recordLaw_withIndex fun _ => by cases s.flags.equal <;> rfl
  | jumpIfNotEqual a => exact recordLaw_withIndex fun _ => by cases s.flags.equal <;> rfl

/-- The fetch raises a memory address or an unknown opcode, under every configuration. -/
theorem fetchInstr_error {c : Config} {s : State} {r : Raise} (h : fetchInstr c s = .error r) :
    r.cause = .memoryAddressFault ∨ r.cause = .decodeFault := by
  have operand {present : Bool} {a : Nat} (h : fetchOperand c present a s = .error r) : r.cause = .memoryAddressFault := by
    cases present with
    | false => cases h
    | true => rw [readMem_error h]
  rcases bind_error h with h | ⟨op, -, h⟩
  · exact .inl (by rw [readMem_error h])
  · split at h
    · cases h
      exact .inr rfl
    · rcases bind_error h with h | ⟨a, -, h⟩
      · exact .inl (operand h)
      · rcases bind_error h with h | ⟨b, -, h⟩
        · exact .inl (operand h)
        · cases h

theorem execWith_fr {c : Config} {i : Instr} {s : State} {f : FaultRecord} (h : (execWith c i s).fr = some f) :
    s.fr = some f ∨ HandlerCause c f.cause := by
  have law := ruleWith_recordLaw c i s
  cases hrule : ruleWith c i s with
  | ok t =>
    have hfr : t.fr = s.fr := by rwa [hrule] at law
    rcases execWith_of_ok hrule with he | he <;> rw [he] at h
    · exact .inl (hfr ▸ h)
    · exact .inl (hfr ▸ h)
  | error r =>
    rw [execWith_of_error hrule] at h
    cases h
    rw [hrule] at law
    exact .inr law

/-- A record that a step leaves in FR was there before, or has a cause of the fetch or of a handler. -/
theorem stepWith_fr {c : Config} {s t : State} {f : FaultRecord} (hstep : stepWith c s = some t) (h : t.fr = some f) :
    s.fr = some f ∨ f.cause = .decodeFault ∨ HandlerCause c f.cause := by
  unfold stepWith at hstep
  split at hstep
  · split at hstep <;> obtain rfl := Option.some.inj hstep
    · exact (execWith_fr h).imp_right .inr
    · next hfetch =>
      cases h
      exact .inr ((fetchInstr_error hfetch).symm.imp_right .inl)
  · cases hstep
  · cases hstep

/-- Settles O16: the select is looked at first, and neither the fetch nor a handler has that cause. -/
theorem unsupportedAluSelectFaultsAndIsUnreachable : Obligations.UnsupportedAluSelectFaultsAndIsUnreachable := by
  refine ⟨fun _ _ _ _ _ => rfl, fun s t f hstep h => ?_⟩
  refine (stepWith_fr ((step_next_iff s t).mp hstep) h).imp_right ?_
  rintro (hf | hf | ⟨hf, -⟩) <;> simp [hf]

/-- Settles O18: a handler has that cause under the policy `fault` alone. -/
theorem maskPolicyNeverRaisesIndexFault : Obligations.MaskPolicyNeverRaisesIndexFault := by
  intro c s t f hc hstep h
  refine (stepWith_fr hstep h).imp_right ?_
  rintro (hf | hf | ⟨-, hf⟩)
  · simp [hf]
  · simp [hf]
  · cases hf.symm.trans hc

/-! ## Stack addresses beyond a small memory (43_stack.md R161, R163) -/

theorem storeAtSp_of_ge {c : Config} {v : Byte} {s : State} (h : c.memSize ≤ (s.reg 7 - 1).toNat) :
    storeAtSp c v s.decrementSp = .error ⟨.memoryAddressFault, (s.reg 7 - 1).toNat⟩ := by
  rw [storeAtSp, sp_decrementSp, sp_eq_reg, writeMem_of_ge h]

theorem loadAtSp_of_ge {c : Config} {s : State} (h : c.memSize ≤ (s.reg 7).toNat) :
    loadAtSp c s = .error ⟨.memoryAddressFault, (s.reg 7).toNat⟩ := readMem_of_ge h

/-- Settles O19: past the register operand and CALL's return address, the stack access is the one check left. -/
theorem stackAddressFaultsInSmallMemory : Obligations.StackAddressFaultsInSmallMemory := by
  intro c a i s ha
  have hidx : regIdx c a = .ok i := regIdx_of_lt c ha
  have faults {j : Instr} {n : Nat} (h : ruleWith c j s = .error ⟨.memoryAddressFault, n⟩) :
      execWith c j s = { s with rs := .faulted, fr := some ⟨.memoryAddressFault, s.pc, n⟩ } := execWith_of_error h
  refine ⟨fun h => faults ?_, fun h hpc => faults ?_, fun h => faults ?_, fun h => faults ?_⟩
  · simp only [ruleWith, pushRule, hidx, ok_bind, storeAtSp_of_ge h]
  · simp only [ruleWith, callRule, hidx, ok_bind, Nat.not_lt.mpr hpc, if_false, storeAtSp_of_ge h, error_bind]
  · simp only [ruleWith, popRule, hidx, ok_bind, loadAtSp_of_ge h, error_bind]
  · simp only [ruleWith, retRule, loadAtSp_of_ge h, error_bind]

end Sys2Proof.Machine
end

section
/-! PROOFS. What each instruction does on operands that name registers (41_halt_move_output.md, 42_alu.md, 43_stack.md,
44_control_flow.md): the state of its constructor of `Completes`, read field by field. -/

namespace Sys2Proof.Machine

theorem toNat_wrapByte (n : Nat) : (wrapByte n).toNat = n % 256 := BitVec.toNat_ofNat n 8

/-- Settles O20: HALT completes from every state, in that one. -/
theorem haltCompletes : Obligations.HaltCompletes := fun _ => exec_of_completes .halt

/-- Settles O21: one register is set, and the format has two operand bytes. -/
theorem loadImmediateCompletes : Obligations.LoadImmediateCompletes := fun _ imm i s ha =>
  ⟨_, exec_of_completes (.loadImmediate ha), reg_setReg_self s i imm, reg_setReg_of_ne s i imm,
    advance_opcodeMap_pc _ _, rfl, rfl, rfl, rfl, rfl⟩

/-- Settles O22: the register's value is emitted, and the format has one operand byte. -/
theorem printRegisterCompletes : Obligations.PrintRegisterCompletes := fun _ _ s ha => by
  rw [exec_of_completes (.printRegister ha), advance_opcodeMap]
  rfl

/-- Settles O23: the sum is narrowed modulo 256. -/
theorem addCompletes : Obligations.AddCompletes := fun _ _ i _ s ha hb =>
  ⟨_, exec_of_completes (.add ha hb), by simp [toNat_wrapByte], reg_setReg_of_ne s i _,
    advance_opcodeMap_pc _ _, rfl, rfl, rfl, rfl, rfl⟩

/-- Settles O24: the product is narrowed modulo 256. -/
theorem multiplyCompletes : Obligations.MultiplyCompletes := fun _ _ i _ s ha hb =>
  ⟨_, exec_of_completes (.multiply ha hb), by simp [toNat_wrapByte], reg_setReg_of_ne s i _,
    advance_opcodeMap_pc _ _, rfl, rfl, rfl, rfl, rfl⟩

/-- Settles O25: each flag decides its comparison. -/
theorem compareCompletes : Obligations.CompareCompletes := fun _ _ _ _ _ ha hb =>
  ⟨_, exec_of_completes (.compare ha hb), decide_eq_true_iff, decide_eq_true_iff, decide_eq_true_iff, fun _ => rfl,
    advance_opcodeMap_pc _ _, rfl, rfl, rfl, rfl⟩

/-! ## The stack (43_stack.md) -/

theorem read_pushed_self (s : State) (v : Byte) : (s.pushed v).mem.read (s.reg 7 - 1).toNat = v := by
  rw [pushed_mem, sp_eq_reg, read_write_self]

theorem read_pushed_of_ne (s : State) (v : Byte) {addr : Nat} (h : addr ≠ (s.reg 7 - 1).toNat) :
    (s.pushed v).mem.read addr = s.mem.read addr := by
  rw [pushed_mem, sp_eq_reg, read_write_of_ne _ _ _ _ h]

/-- Settles O26: the register is read from the state with SP decremented. -/
theorem pushCompletes : Obligations.PushCompletes := fun _ i s ha =>
  ⟨_, exec_of_completes (.push ha), reg_decrementSp_seven s, reg_decrementSp_of_ne s,
    (read_pushed_self s _).trans (reg_decrementSp s i), fun _ => read_pushed_of_ne s _,
    advance_opcodeMap_pc _ _, rfl, rfl, rfl, rfl⟩

/-- Settles O27: SP is incremented in the state with the register written. -/
theorem popCompletes : Obligations.PopCompletes := by
  intro a i s ha
  refine ⟨_, exec_of_completes (.pop ha), fun hi => ⟨?_, ?_⟩, ?_, fun k hki hk7 => ?_, advance_opcodeMap_pc _ _,
    rfl, rfl, rfl, rfl, rfl⟩
  · rw [advance_reg, reg_incrementSp_of_ne _ _ hi, reg_setReg_self, sp_eq_reg]
  · rw [advance_reg, reg_incrementSp_seven, reg_setReg_of_ne _ _ _ _ (Ne.symm hi)]
  · rintro rfl
    rw [advance_reg, reg_incrementSp_seven, reg_setReg_self, sp_eq_reg]
  · rw [advance_reg, reg_incrementSp_of_ne _ _ hk7, reg_setReg_of_ne _ _ _ _ hki]

/-! ## Control flow (44_control_flow.md) -/

/-- Settles O28: the target is read from the state with SP decremented; a return address up to 255 is stored whole. -/
theorem callCompletes : Obligations.CallCompletes := fun _ i s ha hpc =>
  ⟨_, exec_of_completes (.call ha hpc), reg_decrementSp_seven s, reg_decrementSp_of_ne s,
    (congrArg BitVec.toNat (read_pushed_self s _)).trans
      ((toNat_wrapByte _).trans (Nat.mod_eq_of_lt (Nat.lt_succ_of_le hpc))),
    fun _ => read_pushed_of_ne s _, congrArg BitVec.toNat (reg_decrementSp s i), rfl, rfl, rfl, rfl⟩

/-- Settles O29: RETURN completes from every state, since SP is always inside memory. -/
theorem returnCompletes : Obligations.ReturnCompletes := fun s =>
  ⟨_, exec_of_completes .ret, rfl, reg_incrementSp_seven s, reg_incrementSp_of_ne s, rfl, rfl, rfl, rfl, rfl⟩

/-- Settles O30: the one end of a JUMP whose operand names a register. -/
theorem jumpCompletes : Obligations.JumpCompletes := fun _ _ _ ha => exec_of_completes (.jump ha)

/-- Settles O31: both branches in the one state of `Completes.jumpIfEqual`. -/
theorem jumpIfEqualCompletes : Obligations.JumpIfEqualCompletes := fun _ _ _ ha => exec_of_completes (.jumpIfEqual ha)

/-- Settles O32: both branches in the one state of `Completes.jumpIfNotEqual`. -/
theorem jumpIfNotEqualCompletes : Obligations.JumpIfNotEqualCompletes := fun _ _ _ ha =>
  exec_of_completes (.jumpIfNotEqual ha)

/-- Settles O49: both next pcs are chosen by the one flag Equal. -/
theorem conditionalJumpsAreComplementary : Obligations.ConditionalJumpsAreComplementary := by
  intro a i s t u ha ht hu
  obtain rfl := eq_of_completes (.jumpIfEqual ha) ht
  obtain rfl := eq_of_completes (.jumpIfNotEqual ha) hu
  by_cases he : s.flags.equal = true
  · exact .inl ⟨if_pos he, if_pos he⟩
  · exact .inr ⟨if_neg he, if_neg he⟩

theorem finishWith_controlFlow {m : Mnemonic} (hm : m ∈ controlFlowMnemonics) (c : Config) (s : State) (r : Attempt) :
    finishWith c m s r = finishControlFlow s r := by
  cases m with
  | halt | call | ret | jump | jumpIfEqual | jumpIfNotEqual => rfl
  | loadImmediate | printRegister | add | multiply | compare | push | pop => simp at hm

/-- Without a fault, the state after a control-flow instruction is its handler's. -/
theorem ruleWith_ok_of_controlFlow {c : Config} {i : Instr} {s : State} (hi : i.mnemonic ∈ controlFlowMnemonics)
    (hok : (execWith c i s).rs ≠ .faulted) : ruleWith c i s = .ok (execWith c i s) := by
  cases hrule : ruleWith c i s with
  | ok t => rw [execWith, finishWith_controlFlow hi, hrule, finishControlFlow_ok]
  | error r => simp [execWith_of_error hrule] at hok

/-- Settles O45: no general advance follows the handler, and the pc is that of the completing instruction. -/
theorem controlFlowSetsPc : Obligations.ControlFlowSetsPc := by
  intro s t i hrs hfetch hi hstep hok
  have hexec : exec i s = .next t := (step_of_fetchInstr_ok hrs hfetch).symm.trans hstep
  have hrule : ruleWith Config.machine i s = .ok t := by
    obtain rfl := (exec_next_iff i s t).mp hexec
    exact ruleWith_ok_of_controlFlow hi hok
  refine ⟨hexec, hrule, ?_⟩
  rcases exec_next_cases hexec with h | ⟨r, -, rfl⟩
  · cases h with
    | call ha => exact ⟨_, ha, rfl⟩
    | ret => exact rfl
    | jump ha => exact ⟨_, ha, rfl⟩
    | jumpIfEqual ha => exact ⟨_, ha, rfl⟩
    | jumpIfNotEqual ha => exact ⟨_, ha, rfl⟩
    | halt | loadImmediate | printRegister | add | multiply | compare | push | pop => trivial
  · exact absurd rfl hok

/-! ## Sequences -/

theorem compareFlags_self (u : Byte) : compareFlags u u = ⟨true, false, false⟩ := by simp [compareFlags]

/-- Settles O46: a comparison has exactly one outcome, and no other instruction writes the flags. -/
theorem compareSetsExactlyOneFlag : Obligations.CompareSetsExactlyOneFlag := by
  refine ⟨fun a b i j s t ha hb hexec => ?_, fun i s t hexec hcompare hs => ?_⟩
  · obtain rfl := eq_of_completes (.compare ha hb) hexec
    refine ⟨compareFlags_exactlyOne _ _, ?_⟩
    rintro rfl
    obtain rfl : i = j := Fin.ext (ha.symm.trans hb)
    exact compareFlags_self _
  · obtain rfl := (exec_next_iff i s t).mp hexec
    rwa [execWith_flags s hcompare]

theorem reg_setReg_own (s : State) (i k : RegIndex) : (s.setReg i (s.reg i)).reg k = s.reg k := by
  rw [reg_setReg]
  split
  · next h => rw [h]
  · rfl

/-- The state that a POP of register `j` leaves after a PUSH of the byte `v`: SP is back, and `j` holds `v` unless it is SP. -/
theorem reg_pop_pushed (s : State) (v : Byte) (j k : RegIndex) :
    ((s.pushed v).setReg j ((s.pushed v).mem.read (s.pushed v).sp.toNat)).incrementSp.reg k =
      if k = 7 then (if j = 7 then v else s.reg 7 - 1) + 1 else if j = k then v else s.reg k := by
  have hsp : (s.pushed v).sp = s.reg 7 - 1 := reg_decrementSp_seven s
  rw [hsp, read_pushed_self, reg_incrementSp]
  split
  · rw [reg_setReg, pushed_reg, reg_decrementSp_seven]
  · next hk => rw [reg_setReg, pushed_reg, reg_decrementSp_of_ne s k hk]

/-- Settles O47: POP reads the byte that PUSH stored, at the SP that PUSH left; it increments SP back, and a popped r7 too. -/
theorem pushThenPopRestores : Obligations.PushThenPopRestores := by
  intro a b i j s ha hb
  refine ⟨_, exec_of_completes (.push ha), ⟨_, exec_of_completes (.pop ha), regs_ext fun k => ?_, ?_, rfl,
    (read_pushed_self s _).trans (reg_decrementSp s i)⟩, fun hi hj => ⟨_, exec_of_completes (.pop hb), ?_, ?_,
    fun k hk => ?_⟩⟩
  · refine (reg_pop_pushed s _ i k).trans ?_
    rw [reg_decrementSp]
    by_cases hk : k = 7
    · by_cases hi : i = 7 <;> simp [hk, hi]
    · by_cases hik : i = k <;> simp [hk, hik]
  · simp only [advance_opcodeMap_pc, incrementSp_pc, setReg_pc, pushed_pc, Mnemonic.format, Format.operandBytes]
  · refine (reg_pop_pushed s _ j j).trans ?_
    rw [if_neg hj, if_pos rfl, reg_decrementSp_of_ne s i hi]
  · refine (reg_pop_pushed s _ j 7).trans ?_
    rw [if_pos rfl, if_neg hj, BitVec.sub_add_cancel]
  · refine (reg_pop_pushed s _ j k).trans ?_
    rw [if_neg hj, if_neg (Ne.symm hk), BitVec.sub_add_cancel]
    split
    · next h => rw [h]
    · rfl

/-- Settles O48: CALL left the return address where SP points, and RETURN takes pc from there and increments SP back. -/
theorem returnResumesAfterCall : Obligations.ReturnResumesAfterCall := by
  intro a i s t u ha hpc hexec hsp hbyte
  obtain ⟨t', hexec', ht'sp, -, hstored, -⟩ := callCompletes a i s ha hpc
  obtain rfl : t' = t := Host.Outcome.next.inj (hexec'.symm.trans hexec)
  obtain ⟨w, hret, hwpc, hwsp, -⟩ := returnCompletes u
  refine ⟨w, hret, ?_, ?_⟩
  · rw [hwpc, hbyte, ht'sp, hstored]
  · rw [hwsp, hsp, ht'sp, BitVec.sub_add_cancel]

theorem fetch_pushed (s : State) (v : Byte) (addr : Nat) :
    fetch Config.machine addr (s.pushed v) =
      if addr = (s.reg 7 - 1).toNat then .ok v else fetch Config.machine addr s := by
  split
  · next h =>
    subst h
    exact (fetch_of_lt (BitVec.isLt _)).trans (congrArg Except.ok (read_pushed_self s v))
  · next h => simp only [fetch, readMem, read_pushed_of_ne s v h]

/-- Settles O50: a fetch reads the one memory that the push wrote. -/
theorem storedBytesAreFetched : Obligations.StoredBytesAreFetched := by
  refine fun a i s t addr ha => ⟨fun hexec => ?_, fun hpc hexec => ?_⟩
  · obtain rfl := eq_of_completes (.push ha) hexec
    rw [← reg_decrementSp]
    exact fetch_pushed s _ addr
  · obtain rfl := eq_of_completes (.call ha hpc) hexec
    exact fetch_pushed s _ addr

end Sys2Proof.Machine
end

section
/-! PROOFS. Frames and the register-use table (10_state.md, section 2): what an instruction leaves unchanged, a taken fault
included, and which registers it does not read. -/

namespace Sys2Proof.Machine

/-! ## Frames of every instruction, by piece of state -/

theorem eq_of_reg_setReg_ne {s : State} {i k : RegIndex} {v : Byte} (h : (s.setReg i v).reg k ≠ s.reg k) : k = i :=
  of_not_not fun hk => h (reg_setReg_of_ne s i v k hk)

/-- Settles O41: the registers that a completing instruction sets; a fault sets none. -/
theorem registerWriteTable : Obligations.RegisterWriteTable := by
  intro i s t k hexec hne
  rcases exec_next_cases hexec with h | ⟨r, -, rfl⟩
  · cases h with
    | loadImmediate ha | add ha _ | multiply ha _ =>
      obtain rfl := eq_of_reg_setReg_ne hne
      exact ha
    | push | call => exact of_not_not fun hk => hne (reg_decrementSp_of_ne s k hk)
    | ret => exact of_not_not fun hk => hne (reg_incrementSp_of_ne s k hk)
    | @pop a j ha =>
      refine or_iff_not_imp_right.mpr fun hk => ?_
      rw [advance_reg, reg_incrementSp_of_ne _ k hk] at hne
      obtain rfl := eq_of_reg_setReg_ne hne
      exact ha
    | halt | printRegister | compare | jump | jumpIfEqual | jumpIfNotEqual => exact hne rfl
  · exact absurd rfl hne

/-- Settles O39: PRINT_REGISTER alone completes with another OUT; a fault keeps it. -/
theorem onlyPrintRegisterEmits : Obligations.OnlyPrintRegisterEmits := by
  intro i s t hexec
  rcases exec_next_cases hexec with h | ⟨r, -, rfl⟩
  · exact completes_out h
  · exact .inl rfl

section
variable {i : Instr} {s t : State} (hexec : exec i s = .next t)
include hexec

theorem exec_out (hi : ∀ a, i ≠ .printRegister a) : t.out = s.out :=
  (onlyPrintRegisterEmits i s t hexec).resolve_right fun ⟨a, _, h, _⟩ => hi a h

theorem exec_flags (hi : ∀ a b, i ≠ .compare a b) : t.flags = s.flags := by
  obtain rfl := (exec_next_iff i s t).mp hexec
  exact execWith_flags s hi

theorem exec_keepsRunState (hi : i ≠ .halt) : KeepsRunState s t := by
  rcases exec_next_cases hexec with h | ⟨r, -, rfl⟩
  · exact .inl ⟨by rw [completes_rs h, if_neg hi], completes_fr h⟩
  · exact .inr ⟨_, _, rfl⟩

theorem exec_read (hi : ∀ a, i ≠ .push a ∧ i ≠ .call a) (addr : Nat) : t.mem.read addr = s.mem.read addr := by
  rw [exec_mem hexec hi]

/-- The one byte that an instruction can write is that at the decremented SP. -/
theorem exec_read_of_ne {addr : Nat} (haddr : addr ≠ s.decrementSp.sp.toNat) : t.mem.read addr = s.mem.read addr := by
  rw [sp_decrementSp] at haddr
  rcases exec_next_cases hexec with h | ⟨r, -, rfl⟩
  · rcases completes_mem h with hmem | ⟨-, v, hmem⟩ <;> rw [hmem]
    exact read_write_of_ne _ _ _ _ haddr
  · rfl

end

/-! ## Frames of the instructions -/

/-- Settles O33: the frame of each piece, and the table's row for the registers. -/
theorem registerResultFrame : Obligations.RegisterResultFrame := by
  rintro _ _ s t (h | h | h) <;>
    exact ⟨fun k hk => of_not_not fun hne => hk (registerWriteTable _ s t k h hne), exec_flags h nofun, exec_out h nofun,
      exec_read h fun _ => ⟨nofun, nofun⟩, exec_keepsRunState h nofun⟩

/-- Settles O34: the table has no register in these rows; the frames of the other pieces. -/
theorem printAndCompareFrame : Obligations.PrintAndCompareFrame := fun _ _ s t =>
  ⟨fun h => ⟨fun k => of_not_not (registerWriteTable _ s t k h), exec_flags h nofun, exec_read h fun _ => ⟨nofun, nofun⟩,
      exec_keepsRunState h nofun⟩,
    fun h => ⟨fun k => of_not_not (registerWriteTable _ s t k h), exec_out h nofun, exec_read h fun _ => ⟨nofun, nofun⟩,
      exec_keepsRunState h nofun⟩⟩

/-- Settles O35: SP is the table's row, the one byte is that at the decremented SP. -/
theorem pushAndCallFrame : Obligations.PushAndCallFrame := by
  rintro a s t (h | h) <;>
    exact ⟨fun k hk => of_not_not fun hne => hk (registerWriteTable _ s t k h hne), exec_flags h nofun, exec_out h nofun,
      fun _ => exec_read_of_ne h, exec_keepsRunState h nofun⟩

/-- Settles O36: the table's rows for the registers; neither instruction is one that writes memory. -/
theorem popAndReturnFrame : Obligations.PopAndReturnFrame := fun _ s t =>
  ⟨fun h => ⟨fun k hk hk7 => of_not_not fun hne => (registerWriteTable _ s t k h hne).elim hk hk7, exec_flags h nofun,
      exec_out h nofun, exec_read h fun _ => ⟨nofun, nofun⟩, exec_keepsRunState h nofun⟩,
    fun h => ⟨fun k hk => of_not_not fun hne => hk (registerWriteTable _ s t k h hne), exec_flags h nofun,
      exec_out h nofun, exec_read h fun _ => ⟨nofun, nofun⟩, exec_keepsRunState h nofun⟩⟩

/-- Settles O37: the table has no register in these rows, and HALT's state is written out. -/
theorem jumpAndHaltFrame : Obligations.JumpAndHaltFrame := by
  refine fun a s t => ⟨?_, fun h => ?_⟩
  · rintro (h | h | h) <;>
      exact ⟨fun k => of_not_not (registerWriteTable _ s t k h), exec_flags h nofun, exec_out h nofun,
        exec_read h fun _ => ⟨nofun, nofun⟩, exec_keepsRunState h nofun⟩
  · obtain rfl := eq_of_completes .halt h
    exact ⟨fun _ => rfl, rfl, rfl, fun _ => rfl, rfl, rfl, rfl⟩

/-! ## Registers that are not read -/

theorem setReg_comm (s : State) {i k : RegIndex} (h : i ≠ k) (v w : Byte) :
    (s.setReg k v).setReg i w = (s.setReg i w).setReg k v := by
  simp only [State.setReg, State.mk.injEq, and_self, and_true]
  exact Vector.set_comm _ _ fun hik => h (Fin.ext hik.symm)

section
variable (s : State) {k : RegIndex} (hk : k ≠ 7) (v : Byte)
include hk

theorem sp_setReg : (s.setReg k v).sp = s.sp := reg_setReg_of_ne s k v 7 (Ne.symm hk)

theorem decrementSp_setReg : (s.setReg k v).decrementSp = s.decrementSp.setReg k v := by
  rw [State.decrementSp, sp_setReg s hk]
  exact setReg_comm s (Ne.symm hk) v _

theorem incrementSp_setReg : (s.setReg k v).incrementSp = s.incrementSp.setReg k v := by
  rw [State.incrementSp, sp_setReg s hk]
  exact setReg_comm s (Ne.symm hk) v _

theorem pushed_setReg (w : Byte) : (s.setReg k v).pushed w = (s.pushed w).setReg k v := by
  simp only [State.pushed, decrementSp_setReg s hk, setReg_mem, sp_setReg s.decrementSp hk]
  rfl

end

theorem completes_congr {i : Instr} {s t t' : State} (h : Completes s i t) (e : t = t') : Completes s i t' := e ▸ h

/-- A completing instruction that does not name `k` does the same with another value in register `k`, and keeps it. -/
theorem completes_setReg {i : Instr} {s t : State} {k : RegIndex} (h : Completes s i t) (v : Byte) (hk : k ≠ 7)
    (hnames : ∀ r ∈ i.registerOperands, ¬Names r k) : Completes (s.setReg k v) i (t.setReg k v) := by
  have ne {r : Byte} {j : RegIndex} (hj : Names r j) (hr : r ∈ i.registerOperands) : j ≠ k := by
    rintro rfl
    exact hnames r hr hj
  have reg {r : Byte} {j : RegIndex} (hj : Names r j) (hr : r ∈ i.registerOperands) (u : State) :
      (u.setReg k v).reg j = u.reg j := reg_setReg_of_ne u k v j (ne hj hr)
  cases h with
  | halt => exact .halt
  | loadImmediate ha =>
    refine completes_congr (.loadImmediate ha) ?_
    rw [setReg_comm s (ne ha (.head _))]
    rfl
  | printRegister ha =>
    refine completes_congr (.printRegister ha) ?_
    rw [reg ha (.head _)]
    rfl
  | add ha hb =>
    refine completes_congr (.add ha hb) ?_
    rw [reg ha (.head _), reg hb (.tail _ (.head _)), setReg_comm s (ne ha (.head _))]
    rfl
  | multiply ha hb =>
    refine completes_congr (.multiply ha hb) ?_
    rw [reg ha (.head _), reg hb (.tail _ (.head _)), setReg_comm s (ne ha (.head _))]
    rfl
  | compare ha hb =>
    refine completes_congr (.compare ha hb) ?_
    rw [reg ha (.head _), reg hb (.tail _ (.head _))]
    rfl
  | push ha =>
    refine completes_congr (.push ha) ?_
    rw [decrementSp_setReg s hk, reg ha (.head _), pushed_setReg s hk]
    rfl
  | pop ha =>
    refine completes_congr (.pop ha) ?_
    rw [setReg_mem, sp_setReg s hk, setReg_comm s (ne ha (.head _)), incrementSp_setReg _ hk]
    rfl
  | call ha hpc =>
    refine completes_congr (.call ha hpc) ?_
    rw [decrementSp_setReg s hk, reg ha (.head _), setReg_pc, pushed_setReg s hk]
    rfl
  | ret =>
    refine completes_congr .ret ?_
    rw [setReg_mem, sp_setReg s hk, incrementSp_setReg s hk]
    rfl
  | jump ha =>
    refine completes_congr (.jump ha) ?_
    rw [reg ha (.head _)]
    rfl
  | jumpIfEqual ha =>
    refine completes_congr (.jumpIfEqual ha) ?_
    rw [reg ha (.head _)]
    rfl
  | jumpIfNotEqual ha =>
    refine completes_congr (.jumpIfNotEqual ha) ?_
    rw [reg ha (.head _)]
    rfl

/-- Settles O42: a fault depends on the operand bytes and pc alone, a completion on the registers it names and SP. -/
theorem unnamedRegistersAreNotRead : Obligations.UnnamedRegistersAreNotRead := by
  intro i s t k v hexec hk hnames
  rcases exec_next_cases hexec with h | ⟨r, hr, rfl⟩
  · exact exec_of_completes (completes_setReg h v hk hnames)
  · have hr' : Raises (s.setReg k v) i r := by
      cases hr with
      | registerIndex hv => exact .registerIndex hv
      | returnAddress ha hpc => exact .returnAddress ha hpc
    exact exec_of_raises hr'

end Sys2Proof.Machine
end

section
/-! PROOFS. Reset, the load of an image (70_reset_and_hazards.md, sections 1 and 2), the canonical form of memory
(20_memory.md, section 2) and the interfaces (10_state.md, section 7). -/

namespace Sys2Proof.Machine

/-! ## Reset -/

/-- The reset state with any canonical memory meets the invariant. -/
theorem reset_with_mem_inv {m : Memory} (hm : m.wf Config.machine.memSize) : { State.reset with mem := m }.Inv where
  mem_wf := hm
  pc_le := Nat.zero_le _
  flags_exclusive := show State.reset.flags.exclusive by decide
  fr_valid := show State.reset.rs = .faulted ↔ State.reset.fr.isSome = true by decide
  fr_possible := nofun

/-- Settles O52: memory after reset is empty. -/
theorem resetMeetsInvariant : Obligations.ResetMeetsInvariant := reset_with_mem_inv reset_mem_wf

/-- Settles O53: the eight registers one by one, every other field as the reset state writes it. -/
theorem resetValues : Obligations.ResetValues := ⟨rfl, rfl, by decide, rfl, rfl, rfl, read_nil⟩

/-! ## The load of an image -/

/-- Bytes written at ascending addresses inside memory are read there, and every other address reads as before. -/
theorem read_writeBytes {size : Nat} {bs : List Byte} {m : Memory} {a : Nat} (h : a + bs.length ≤ size) (k : Nat) :
    (m.writeBytes size a bs).read k = if a ≤ k then bs[k - a]?.getD (m.read k) else m.read k := by
  induction bs generalizing m a with
  | nil => simp [Memory.writeBytes]
  | cons b bs ih =>
    rw [List.length_cons] at h
    rw [Memory.writeBytes, if_pos (by omega), ih (by omega), read_write]
    rcases Nat.lt_trichotomy a k with hlt | rfl | hgt
    · obtain ⟨d, rfl⟩ : ∃ d, k = a + 1 + d := ⟨k - (a + 1), by omega⟩
      rw [if_pos (by omega), if_neg (by omega), if_pos (by omega), show a + 1 + d - a = d + 1 by omega,
        Nat.add_sub_cancel_left, List.getElem?_cons_succ]
    · simp
    · rw [if_neg (by omega), if_neg (by omega), if_neg (by omega)]

/-- Settles O54: the image is written into the empty memory, which keeps the canonical form. -/
theorem bootLoadsTheImage : Obligations.BootLoadsTheImage := by
  refine fun image => ⟨fun hle => ?_, fun hlt => if_neg (Nat.not_le.mpr hlt)⟩
  have hread := read_writeBytes (size := 256) (m := []) (a := 0) (bs := image) (by omega)
  refine ⟨_, if_pos hle, rfl, fun k hk => ?_, fun k hk => ?_, reset_with_mem_inv (wf_writeBytes _ _ _ _ (wf_nil _))⟩
  · refine (hread k).trans ?_
    simp [hk]
  · refine (hread k).trans ?_
    simp [hk]

/-! ## The canonical form of memory -/

/-- A canonical memory lists exactly the bytes other than 0 that it reads. -/
theorem mem_iff_read {size : Nat} {m : Memory} (h : m.wf size) (e : Host.Cell) : e ∈ m ↔ e.2 ≠ 0 ∧ m.read e.1 = e.2 := by
  induction m with
  | nil => exact iff_of_false List.not_mem_nil fun ⟨hne, h⟩ => hne h.symm
  | cons f m ih =>
    obtain ⟨hsorted, hbytes⟩ := h
    obtain ⟨hf, hm⟩ := List.pairwise_cons.mp hsorted
    have ih := ih ⟨hm, fun x hx => hbytes x (List.mem_cons_of_mem _ hx)⟩
    rw [List.mem_cons, Memory.read]
    by_cases haddr : f.1 = e.1
    · have hnot : e ∉ m := fun he => (haddr ▸ hf e he).false
      rw [if_pos haddr, or_iff_left hnot]
      constructor
      · rintro rfl
        exact ⟨(hbytes e List.mem_cons_self).1, rfl⟩
      · exact fun ⟨_, hbyte⟩ => (Prod.ext haddr hbyte).symm
    · have hne : e ≠ f := fun h => haddr (h ▸ rfl)
      rw [if_neg haddr, or_iff_right hne, ih]

/-- Settles O55: two rising lists with the same entries are the same list. -/
theorem canonicalMemoryIsDetermined : Obligations.CanonicalMemoryIsDetermined := by
  intro size m m' hm hm' hread
  have : Std.Irrefl fun x y : Host.Cell => x.1 < y.1 := ⟨fun x => Nat.lt_irrefl x.1⟩
  have : Std.Antisymm fun x y : Host.Cell => x.1 < y.1 := ⟨fun x y h h' => absurd h (Nat.lt_asymm h')⟩
  refine hm.1.eq_of_mem_iff hm'.1 fun e => ?_
  rw [mem_iff_read hm, mem_iff_read hm', hread]

/-! ## The status port and inspection -/

/-- Settles O56: under the invariant FR holds a record exactly when Faulted, and its fpc is the pc. -/
theorem statusPortAndInspection : Obligations.StatusPortAndInspection := by
  refine ⟨⟨rfl, rfl, rfl, rfl⟩, fun s hs => ⟨fun hrs => ?_, fun hrs => ?_, fun hrs => ?_⟩⟩
  · simp [State.statusPort, inspect, hrs, RunState.code]
  · simp [State.statusPort, inspect, hrs, RunState.code]
  · obtain ⟨f, hf⟩ := Option.isSome_iff_exists.mp (hs.fr_valid.mp hrs)
    obtain ⟨hpc, -⟩ := hs.fr_possible f hf
    refine ⟨⟨f, hf, ?_⟩, ?_⟩
    · simp [State.statusPort, hrs, hf, RunState.code, FaultRecord.codes, hpc]
    · simp [inspect, hrs]

end Sys2Proof.Machine
end
